-- ==== Sys2Proof/Config.lean ====
section
/-!
DEFINITION. The implementation parameters of 00_scope.md R6, one field each, at the value this hardware takes. Word.lean
makes the word types of the four widths. The type of `OPCODE_TABLE` is here; its value, `Config.opcodes`, stands in
Decode.lean, beside the decoder and the encoder that read it.
The spec leaves no value free (00_scope.md R12, 10_state.md R39), so there is no opaque constant here.
-/
namespace Sys2Proof.Config

/-- `XLEN`: width of a register and of a memory cell in bits. UNVERIFIED (D1, log entry 24), safe. -/
@[simp] abbrev xlen : Nat := 8

/-- `ADDR_BITS`: width of an address, from `MEM_SIZE` = 2^8. -/
@[simp] abbrev addrBits : Nat := 8

/-- `PC_BITS`: width of the program counter. UNVERIFIED (D2, log entry 24), safe. -/
@[simp] abbrev pcBits : Nat := 8

/-- `FL_BITS`: width of the flags register. UNVERIFIED (D10, log entry 7), safe. -/
@[simp] abbrev flBits : Nat := 8

/-- `NREG`: number of general registers. -/
abbrev nReg : Nat := 8

/-- `SP_INDEX`: the register used as stack pointer. -/
def spIndex : Fin nReg := 7

/-- `MEM_SIZE`: number of memory cells. -/
abbrev memSize : Nat := 256

/-- `SP_INIT`: value of the stack pointer at the start of a run. UNVERIFIED (D8, log entry 12), unsafe. -/
def spInit : BitVec xlen := 0xF4

/-- `PC_RESET`: value of `pc` at the start of a run. UNVERIFIED (D6, log entry 12), unsafe. -/
def pcReset : BitVec pcBits := 0x00

/-- `LOAD_BASE`: address of the first image word. -/
def loadBase : Nat := 0x00

/-- `N_OPCODES`: size of the opcode table. -/
abbrev nOpcodes : Nat := 34

/-- `OPCODE_TABLE`: the byte value of every opcode. -/
structure OpcodeBytes where
  nop : BitVec xlen
  hlt : BitVec xlen
  ret : BitVec xlen
  iret : BitVec xlen
  push : BitVec xlen
  pop : BitVec xlen
  prn : BitVec xlen
  pra : BitVec xlen
  call : BitVec xlen
  int : BitVec xlen
  jmp : BitVec xlen
  jeq : BitVec xlen
  jne : BitVec xlen
  jgt : BitVec xlen
  jlt : BitVec xlen
  jle : BitVec xlen
  jge : BitVec xlen
  inc : BitVec xlen
  dec : BitVec xlen
  not : BitVec xlen
  ldi : BitVec xlen
  ld : BitVec xlen
  st : BitVec xlen
  add : BitVec xlen
  sub : BitVec xlen
  mul : BitVec xlen
  div : BitVec xlen
  mod : BitVec xlen
  cmp : BitVec xlen
  and : BitVec xlen
  or : BitVec xlen
  xor : BitVec xlen
  shl : BitVec xlen
  shr : BitVec xlen
deriving DecidableEq, Repr

/-- The one value the spec defines for each of the three policies of 00_scope.md R6. -/
inductive Policy where
  /-- the run fails with the condition's report -/
  | fault
deriving DecidableEq, Repr

/-- `TOP_POLICY`: what a PC-derived address above 255 does. UNVERIFIED (D3, log entry 10), safe. -/
def topPolicy : Policy := .fault

/-- `REGIDX_POLICY`: what a register-index operand above 7 does. UNVERIFIED (D14, log entry 10), safe. -/
def regIdxPolicy : Policy := .fault

/-- `PLACEHOLDER_POLICY`: what INT and IRET do. UNVERIFIED (D17, log entry 10), safe. -/
def placeholderPolicy : Policy := .fault

/-- `STEP_LIMIT`: maximum number of steps of a run; none, the open parameter's default. UNVERIFIED (D28, log entry 20), safe. -/
def stepLimit : Option Nat := none

end Sys2Proof.Config
end

