-- ==== Sys2Proof/Word.lean ====
section
/-!
DEFINITION. The word types of the core, at the widths of Config, and their plainest arithmetic (00_scope.md R7, R8, R9).
Every register, memory cell, operand byte and address is an unsigned integer in 0..255.
-/
namespace Sys2Proof

/-- A register value, a memory cell or an operand byte: `XLEN` bits, bit 7 the most significant. -/
abbrev Byte := BitVec Config.xlen

/-- A memory address, `ADDR_BITS` wide. A register value is one as it stands (20_memory.md R58), so the two widths are equal. -/
abbrev Addr := BitVec Config.addrBits

/-- A value of the program counter, `PC_BITS` wide: an address (10_state.md R26). -/
abbrev Pc := BitVec Config.pcBits

/-- A value of the flags register, `FL_BITS` wide. -/
abbrev FlWord := BitVec Config.flBits

/-- `wrap8(n) = n mod 256` for any integer, so `wrap8(-1) = 255` (00_scope.md R8). -/
def wrap8 (n : Int) : Byte := BitVec.ofInt Config.xlen n

end Sys2Proof
end

