-- ==== Sys2Proof/Syntax.lean ====
section
/-!
DEFINITION. The instructions of CA8-34, one constructor per row of spec/opcode_table.json, in the table's order
(30_encoding.md R85, R88). Operands are the raw operand bytes that the decoder hands over: `a` the first, `b` the
second; whether a byte is a register index or an immediate is the instruction's matter (R86, R87).
-/
namespace Sys2Proof

/-- The 34 instructions. -/
inductive Instr where
  | nop
  | hlt
  | ret
  | iret
  | push (a : Byte)
  | pop (a : Byte)
  | prn (a : Byte)
  | pra (a : Byte)
  | call (a : Byte)
  | int (a : Byte)
  | jmp (a : Byte)
  | jeq (a : Byte)
  | jne (a : Byte)
  | jgt (a : Byte)
  | jlt (a : Byte)
  | jle (a : Byte)
  | jge (a : Byte)
  | inc (a : Byte)
  | dec (a : Byte)
  | not (a : Byte)
  | ldi (a b : Byte)
  | ld (a b : Byte)
  | st (a b : Byte)
  | add (a b : Byte)
  | sub (a b : Byte)
  | mul (a b : Byte)
  | div (a b : Byte)
  | mod (a b : Byte)
  | cmp (a b : Byte)
  | and (a b : Byte)
  | or (a b : Byte)
  | xor (a b : Byte)
  | shl (a b : Byte)
  | shr (a b : Byte)
deriving DecidableEq, Repr

end Sys2Proof
end

