-- ==== Sys2Proof/WellFormed.lean ====
section
/-!
DEFINITION. Well-formed instructions: every operand byte that is used as a register index names one of the eight
registers (30_encoding.md R85 "legal values 0..7", R86). An ill-formed instruction still decodes and still has a
meaning: executing it raises RegIndexFault (R86, R91), which the meanings model.
-/
namespace Sys2Proof

/-- The operand bytes an instruction uses as register indices, in the order they are checked: `a`, then `b`
(30_encoding.md R85, R86; 60_exceptions.md R226 items 6, 7). LDI's `b` is an immediate (R87) and INT's `a` is not
decoded (46_system.md R202), so neither is listed. -/
def Instr.regOperands : Instr → List Byte
  | .nop => []
  | .hlt => []
  | .ret => []
  | .iret => []
  | .push a => [a]
  | .pop a => [a]
  | .prn a => [a]
  | .pra a => [a]
  | .call a => [a]
  | .int _ => []
  | .jmp a => [a]
  | .jeq a => [a]
  | .jne a => [a]
  | .jgt a => [a]
  | .jlt a => [a]
  | .jle a => [a]
  | .jge a => [a]
  | .inc a => [a]
  | .dec a => [a]
  | .not a => [a]
  | .ldi a _ => [a]
  | .ld a b => [a, b]
  | .st a b => [a, b]
  | .add a b => [a, b]
  | .sub a b => [a, b]
  | .mul a b => [a, b]
  | .div a b => [a, b]
  | .mod a b => [a, b]
  | .cmp a b => [a, b]
  | .and a b => [a, b]
  | .or a b => [a, b]
  | .xor a b => [a, b]
  | .shl a b => [a, b]
  | .shr a b => [a, b]

/-- A byte that is a legal register index, 0..7. -/
def legalIndex (v : Byte) : Bool := v.toNat < Config.nReg

/-- Every register-index operand is legal. -/
def Instr.wellFormed (i : Instr) : Bool := i.regOperands.all legalIndex

end Sys2Proof
end

