-- ==== Sys2Proof/Decode.lean ====
section
/-!
DEFINITION. The opcode table's values, the decoder, total on any bytes, and after it the encoder (30_encoding.md R80 to R92).
The opcode byte is matched whole against the table of R88; its bits 7:6 give the operand count and its bit 4 the
sets-PC flag of any byte, recognised or not (R81, R82, R84). The 34 opcode values are UNVERIFIED (general knowledge
K1, decision D26; log entry 8), unsafe.
-/
namespace Sys2Proof

/-- `n = op[7:6]`, the operand count of any opcode byte (R81, R84). -/
def operandCount (op : Byte) : Nat := (op >>> 6).toNat

/-- `len = n + 1`, the length in bytes (R81). -/
def opLength (op : Byte) : Nat := operandCount op + 1

/-- `op[4]`, the sets-PC (self-advancing) bit (R82). -/
def setsPcBit (op : Byte) : Bool := op.getLsbD 4

/-- The opcode table of R88, written in binary as it stands there. The decoder and the encoder both read it here. -/
def Config.opcodes : Config.OpcodeBytes where
  nop := 0b00000000
  hlt := 0b00000001
  ret := 0b00010001
  iret := 0b00010011
  push := 0b01000101
  pop := 0b01000110
  prn := 0b01000111
  pra := 0b01001000
  call := 0b01010000
  int := 0b01010010
  jmp := 0b01010100
  jeq := 0b01010101
  jne := 0b01010110
  jgt := 0b01010111
  jlt := 0b01011000
  jle := 0b01011001
  jge := 0b01011010
  inc := 0b01100101
  dec := 0b01100110
  not := 0b01101001
  ldi := 0b10000010
  ld := 0b10000011
  st := 0b10000100
  add := 0b10100000
  sub := 0b10100001
  mul := 0b10100010
  div := 0b10100011
  mod := 0b10100100
  cmp := 0b10100111
  and := 0b10101000
  or := 0b10101010
  xor := 0b10101011
  shl := 0b10101100
  shr := 0b10101101

/-- One row of the opcode table: the byte, and the instruction its handler gets from the two raw operand bytes (R85). -/
structure OpcodeRow where
  /-- the whole opcode byte, matched under mask 0xFF -/
  opcode : Byte
  /-- the instruction, given the first and the second operand byte -/
  build : Byte → Byte → Instr

/-- The 34 rows of R88: each opcode byte with what its handler gets. -/
def opcodeTable : List OpcodeRow :=
  [ ⟨Config.opcodes.nop, fun _ _ => .nop⟩,
    ⟨Config.opcodes.hlt, fun _ _ => .hlt⟩,
    ⟨Config.opcodes.ret, fun _ _ => .ret⟩,
    ⟨Config.opcodes.iret, fun _ _ => .iret⟩ ] ++
  [ ⟨Config.opcodes.push, fun a _ => .push a⟩,
    ⟨Config.opcodes.pop, fun a _ => .pop a⟩,
    ⟨Config.opcodes.prn, fun a _ => .prn a⟩,
    ⟨Config.opcodes.pra, fun a _ => .pra a⟩,
    ⟨Config.opcodes.call, fun a _ => .call a⟩,
    ⟨Config.opcodes.int, fun a _ => .int a⟩,
    ⟨Config.opcodes.jmp, fun a _ => .jmp a⟩,
    ⟨Config.opcodes.jeq, fun a _ => .jeq a⟩,
    ⟨Config.opcodes.jne, fun a _ => .jne a⟩,
    ⟨Config.opcodes.jgt, fun a _ => .jgt a⟩,
    ⟨Config.opcodes.jlt, fun a _ => .jlt a⟩,
    ⟨Config.opcodes.jle, fun a _ => .jle a⟩,
    ⟨Config.opcodes.jge, fun a _ => .jge a⟩,
    ⟨Config.opcodes.inc, fun a _ => .inc a⟩,
    ⟨Config.opcodes.dec, fun a _ => .dec a⟩,
    ⟨Config.opcodes.not, fun a _ => .not a⟩ ] ++
  [ ⟨Config.opcodes.ldi, fun a b => .ldi a b⟩,
    ⟨Config.opcodes.ld, fun a b => .ld a b⟩,
    ⟨Config.opcodes.st, fun a b => .st a b⟩,
    ⟨Config.opcodes.add, fun a b => .add a b⟩,
    ⟨Config.opcodes.sub, fun a b => .sub a b⟩,
    ⟨Config.opcodes.mul, fun a b => .mul a b⟩,
    ⟨Config.opcodes.div, fun a b => .div a b⟩,
    ⟨Config.opcodes.mod, fun a b => .mod a b⟩,
    ⟨Config.opcodes.cmp, fun a b => .cmp a b⟩,
    ⟨Config.opcodes.and, fun a b => .and a b⟩,
    ⟨Config.opcodes.or, fun a b => .or a b⟩,
    ⟨Config.opcodes.xor, fun a b => .xor a b⟩,
    ⟨Config.opcodes.shl, fun a b => .shl a b⟩,
    ⟨Config.opcodes.shr, fun a b => .shr a b⟩ ]

/-- The table has `N_OPCODES` rows (R88). -/
theorem opcodeTable_length : opcodeTable.length = Config.nOpcodes := rfl

/-- The table's row for an opcode byte, or none for one of the 222 unrecognised bytes (R90). -/
def lookupOpcode (op : Byte) : Option OpcodeRow := opcodeTable.find? fun row => row.opcode == op

/-- What the decoder answers on an opcode byte and the bytes after it. -/
inductive Decoded where
  /-- a recognised instruction, with the bytes that follow it -/
  | instr (i : Instr) (rest : List Byte)
  /-- rejected: the opcode byte is not in the table (R90); the declared operand bytes are skipped -/
  | unrecognised (op : Byte) (rest : List Byte)
  /-- rejected: fewer bytes follow than the opcode declares (10_state.md R28 case 1) -/
  | truncated (op : Byte)
deriving DecidableEq, Repr

/-- Decode one instruction from its opcode byte and the bytes after it. The operand bytes are checked for
presence before the opcode is looked up (60_exceptions.md R226 items 3, 4). No value of an operand byte is rejected
here: an index above 7 is a fault of the instruction, not another encoding (R91). -/
def decode (op : Byte) (after : List Byte) : Decoded :=
  if after.length < operandCount op then .truncated op
  else
    match lookupOpcode op with
    | none => .unrecognised op (after.drop (operandCount op))
    | some row => .instr (row.build (after.getD 0 0) (after.getD 1 0)) (after.drop (operandCount op))

/-- The opcode byte of an instruction (R88). -/
def Instr.opcode : Instr → Byte
  | .nop => Config.opcodes.nop
  | .hlt => Config.opcodes.hlt
  | .ret => Config.opcodes.ret
  | .iret => Config.opcodes.iret
  | .push _ => Config.opcodes.push
  | .pop _ => Config.opcodes.pop
  | .prn _ => Config.opcodes.prn
  | .pra _ => Config.opcodes.pra
  | .call _ => Config.opcodes.call
  | .int _ => Config.opcodes.int
  | .jmp _ => Config.opcodes.jmp
  | .jeq _ => Config.opcodes.jeq
  | .jne _ => Config.opcodes.jne
  | .jgt _ => Config.opcodes.jgt
  | .jlt _ => Config.opcodes.jlt
  | .jle _ => Config.opcodes.jle
  | .jge _ => Config.opcodes.jge
  | .inc _ => Config.opcodes.inc
  | .dec _ => Config.opcodes.dec
  | .not _ => Config.opcodes.not
  | .ldi _ _ => Config.opcodes.ldi
  | .ld _ _ => Config.opcodes.ld
  | .st _ _ => Config.opcodes.st
  | .add _ _ => Config.opcodes.add
  | .sub _ _ => Config.opcodes.sub
  | .mul _ _ => Config.opcodes.mul
  | .div _ _ => Config.opcodes.div
  | .mod _ _ => Config.opcodes.mod
  | .cmp _ _ => Config.opcodes.cmp
  | .and _ _ => Config.opcodes.and
  | .or _ _ => Config.opcodes.or
  | .xor _ _ => Config.opcodes.xor
  | .shl _ _ => Config.opcodes.shl
  | .shr _ _ => Config.opcodes.shr

/-- The operand bytes of an instruction in memory order (R80, R85). -/
def Instr.operands : Instr → List Byte
  | .nop => []
  | .hlt => []
  | .ret => []
  | .iret => []
  | .push a => [a]
  | .pop a => [a]
  | .prn a => [a]
  | .pra a => [a]
  | .call a => [a]
  | .int a => [a]
  | .jmp a => [a]
  | .jeq a => [a]
  | .jne a => [a]
  | .jgt a => [a]
  | .jlt a => [a]
  | .jle a => [a]
  | .jge a => [a]
  | .inc a => [a]
  | .dec a => [a]
  | .not a => [a]
  | .ldi a b => [a, b]
  | .ld a b => [a, b]
  | .st a b => [a, b]
  | .add a b => [a, b]
  | .sub a b => [a, b]
  | .mul a b => [a, b]
  | .div a b => [a, b]
  | .mod a b => [a, b]
  | .cmp a b => [a, b]
  | .and a b => [a, b]
  | .or a b => [a, b]
  | .xor a b => [a, b]
  | .shl a b => [a, b]
  | .shr a b => [a, b]

/-- The bytes of an instruction: the opcode byte, then the operand bytes at rising addresses (R80; 20_memory.md R53). -/
def encode (i : Instr) : List Byte := i.opcode :: i.operands

/-- Byte `k` of an instruction whose bits, numbered from the first byte's bit 0 up, are `w`; bits from `nbits` up
are 0. -/
def tableByte (nbits w k : Nat) : Byte := BitVec.ofNat Config.xlen ((w % 2 ^ nbits) >>> (Config.xlen * k))

/-- The bytes after the first of a table word, up to the longest skipped form (four bytes, R84). -/
def tableTail (nbits w : Nat) : List Byte := [tableByte nbits w 1, tableByte nbits w 2, tableByte nbits w 3]

/-- The instruction the decoder reads from a word of the opcode table. -/
def decodeTableWord (nbits w : Nat) : Option Instr :=
  match decode (tableByte nbits w 0) (tableTail nbits w) with
  | .instr i _ => some i
  | .unrecognised _ _ => none
  | .truncated _ => none

end Sys2Proof
end

