-- ==== Sys2Proof/Machine/State.lean ====
section
/-!
DEFINITION. The whole state of the machine as plain data (10_state.md R20, R37; 60_exceptions.md R220), and the state
right after reset (R39, 70_reset_and_hazards.md R250).
-/
namespace Sys2Proof.Machine

/-- A register number, 0..7 (10_state.md R21). -/
abbrev Reg := Fin Config.nReg

/-- The five conditions of 60_exceptions.md R220. -/
inductive Condition where
  /-- code 1, non-fatal: the opcode byte is not in the table (R221) -/
  | unrecognised
  /-- code 2, fatal halt: DIV or MOD with a zero divisor (R222) -/
  | divideByZero
  /-- code 3, fault: an operand byte used as a register index is above 7 (R223) -/
  | regIndex
  /-- code 4, fault: a PC-derived address above 255 is needed (R224) -/
  | addrRange
  /-- code 5, fault: INT or IRET executed (R225) -/
  | placeholder
deriving DecidableEq, Repr

/-- `Rpt(code, at, info)`: a condition, the address of the instruction's opcode byte, and one byte (R220).
The fault record `Faulted` is the same triple (10_state.md R34). -/
structure Report where
  /-- the condition -/
  code : Condition
  /-- the spec's `at`: the value of `pc` at the start of the step -/
  addr : Pc
  /-- the opcode byte, or for RegIndexFault the offending operand byte -/
  info : Byte
deriving DecidableEq, Repr

/-- The kind of an output event: PRN emits `num`, PRA emits `chr` (10_state.md R37). -/
inductive OutKind where
  | num
  | chr
deriving DecidableEq, Repr

/-- One event of the two streams, which interleave in execution order (41_output.md R122). -/
inductive Event where
  /-- `Out(kind, v)` (10_state.md R37) -/
  | out (kind : OutKind) (v : Byte)
  /-- `Rpt(code, at, info)` (60_exceptions.md R220) -/
  | rpt (r : Report)
deriving DecidableEq, Repr

/-- Memory: the cells whose value is not the one an unlisted address reads as, addresses strictly rising and below
256 (10_state.md R36). `Memory.wf` in Ops.lean is this form. -/
abbrev Memory := List Host.Cell

/-- The state of the machine. -/
structure State where
  /-- the Register File `x[0]` .. `x[7]` (R21); `x[7]` is the stack pointer (R23) -/
  regs : Vector Byte Config.nReg
  /-- the program counter (R26) -/
  pc : Pc
  /-- the flags register `FL = 0b00000LGE` (R30); the layout is UNVERIFIED (D10, log entry 7) and unobservable, safe -/
  fl : FlWord
  /-- `Halted` (R33) -/
  halted : Bool
  /-- `Faulted`: empty or the fault's triple (R34) -/
  faulted : Option Report
  /-- `Mem[0]` .. `Mem[255]` (R36) -/
  mem : Memory
  /-- the output and the report stream in one list, oldest event first (R37; 60_exceptions.md R220). DEDUCED from
  41_output.md R122 (log entry 3), safe -/
  events : List Event
deriving DecidableEq, Repr

/-- The reasons a step ends in `Outcome.fault`: NONE. Every condition the spec describes, the faults of
60_exceptions.md R220 among them, has its whole effect on the state given by the spec (a report, `Faulted` or `Halted`,
`pc`), so it is a next state. DEDUCED (log entry 2), safe: nothing raises a `Fault`. -/
inductive Fault
deriving DecidableEq, Repr

/-- The reasons a step ends in `Outcome.refused`. -/
inductive Refusal where
  /-- raised by an arm of `exec` whose instruction has no meaning yet, with its mnemonic; safe. No arm raises it now. -/
  | notModelled (mnemonic : String)
deriving DecidableEq, Repr

/-- The outcome of one step or of one instruction. -/
abbrev Result := Host.Outcome State Fault Refusal

/-- The state right after reset (10_state.md R39, 70_reset_and_hazards.md R250): every cell 0, so no cell is listed,
and every register 0 but the stack pointer.
Values the spec decided are UNVERIFIED (D6 to D9, log entry 12), unsafe. -/
def State.reset : State where
  regs := (Vector.replicate Config.nReg 0).set Config.spIndex.val Config.spInit Config.spIndex.isLt
  pc := Config.pcReset
  fl := 0
  halted := false
  faulted := none
  mem := []
  events := []

end Sys2Proof.Machine
end

