-- ==== Sys2Proof/Machine/Ops.lean ====
section
/-!
DEFINITION. The named operations over memory, registers, event streams and the program counter: the pseudocode
primitives of 00_scope.md R9. Raising a fault is `State.raiseAt`, one shared operation (60_exceptions.md R220, R228);
there is no return from a condition (R230).
-/
namespace Sys2Proof.Machine

/-! ### Memory (20_memory.md R50, R51) -/

/-- What an address that no entry lists reads as: the reset contents 0 (10_state.md R39; D9, log entry 6). -/
def Memory.unlisted : Byte := 0

/-- The value of one cell. -/
def Memory.read : Memory → Nat → Byte
  | [], _ => Memory.unlisted
  | (k, v) :: m, addr => if k = addr then v else Memory.read m addr

/-- `(addr, v) :: m`, or `m` alone when `v` is what an unlisted address reads as. -/
def Memory.cons (addr : Nat) (v : Byte) (m : Memory) : Memory :=
  if v = Memory.unlisted then m else (addr, v) :: m

/-- Set one cell, keeping the addresses rising and no entry redundant. -/
def Memory.write : Memory → Nat → Byte → Memory
  | [], addr, v => Memory.cons addr v []
  | (k, w) :: m, addr, v =>
    if addr < k then Memory.cons addr v ((k, w) :: m)
    else if k = addr then Memory.cons addr v m
    else (k, w) :: Memory.write m addr v

/-- All addresses of the list are at least `low`, strictly rising and below 256, and no entry holds the unlisted
value. -/
def Memory.wfFrom : Nat → Memory → Bool
  | _, [] => true
  | low, (k, v) :: m =>
    decide (low ≤ k) && decide (k < Config.memSize) && decide (v ≠ Memory.unlisted) && Memory.wfFrom (k + 1) m

/-- The canonical form of memory. -/
def Memory.wf (m : Memory) : Bool := Memory.wfFrom 0 m

/-- `MemRead(addr, 1)` (20_memory.md R51). -/
def State.memRead (s : State) (addr : Addr) : Byte := s.mem.read addr.toNat

/-- `MemWrite(addr, 1, v)` (20_memory.md R51). -/
def State.memWrite (s : State) (addr : Addr) (v : Byte) : State := { s with mem := s.mem.write addr.toNat v }

/-! ### Registers (10_state.md R21 to R24) -/

/-- `x[r]`. -/
def State.reg (s : State) (r : Reg) : Byte := s.regs[r.val]'r.isLt

/-- `x[r] <- v`. -/
def State.setReg (s : State) (r : Reg) (v : Byte) : State := { s with regs := s.regs.set r.val v r.isLt }

/-- The stack pointer `x[7]` (10_state.md R23). -/
def State.sp (s : State) : Byte := s.reg Config.spIndex

/-- `x[7] <- v`. -/
def State.setSp (s : State) (v : Byte) : State := s.setReg Config.spIndex v

/-! ### The stack (20_memory.md R59, R68) -/

/-- The address a push-type access writes: `wrap8(x[7] - 1)`. SP wraps: UNVERIFIED (D5, log entry 15), unsafe. -/
def State.pushAddr (s : State) : Byte := wrap8 ((s.sp.toNat : Int) - 1)

/-- The stack pointer after a pop-type access: `wrap8(x[7] + 1)`. -/
def State.popSp (s : State) : Byte := wrap8 ((s.sp.toNat : Int) + 1)

/-! ### Events and conditions (10_state.md R34, R37; 60_exceptions.md R220) -/

/-- `emit Out(kind, v)`. -/
def State.emit (s : State) (kind : OutKind) (v : Byte) : State := { s with events := s.events ++ [.out kind v] }

/-- Append a report event. -/
def State.report (s : State) (r : Report) : State := { s with events := s.events ++ [.rpt r] }

/-- `raise`: report the condition and set `Faulted` to the same triple; nothing else changes (00_scope.md R9,
60_exceptions.md R220, R228). -/
def State.raiseAt (s : State) (code : Condition) (addr : Pc) (info : Byte) : State :=
  { s.report ⟨code, addr, info⟩ with faulted := some ⟨code, addr, info⟩ }

/-- What a PC-derived address above 255 does, for the instruction `op` at `addr` (`TOP_POLICY`; R224). -/
def State.addrRangeOut (s : State) (addr : Pc) (op : Byte) : State :=
  match Config.topPolicy with
  | .fault => s.raiseAt .addrRange addr op

/-- What a register-index operand `v` above 7 does (`REGIDX_POLICY`; R223). -/
def State.regIndexOut (s : State) (v : Byte) : State :=
  match Config.regIdxPolicy with
  | .fault => s.raiseAt .regIndex s.pc v

/-- What INT and IRET do (`PLACEHOLDER_POLICY`; R225). -/
def State.placeholder (s : State) (op : Byte) : State :=
  match Config.placeholderPolicy with
  | .fault => s.raiseAt .placeholder s.pc op

/-! ### The program counter (10_state.md R26 to R28; 30_encoding.md R93) -/

/-- `pc <- t`. -/
def State.setPc (s : State) (t : Pc) : State := { s with pc := t }

/-- `advance()` of the instruction whose opcode byte is `op`: `pc <- wrap8(pc + len)`, and then, if `pc + len` is
above 255 and the run is not halted, AddrRangeFault with the step's effects kept. -/
def State.advance (s : State) (op : Byte) : State :=
  let t := s.pc.toNat + opLength op
  let u := s.setPc (wrap8 t)
  if Config.memSize ≤ t ∧ s.halted = false then u.addrRangeOut s.pc op else u

/-! ### End of a run (10_state.md R33, R34; 70_reset_and_hazards.md R253) -/

/-- `Halted` is true or `Faulted` is set. -/
def State.stopped (s : State) : Bool := s.halted || s.faulted.isSome

/-- What a step answers once the run is over: the spec says no step is taken and the state never changes again
(30_encoding.md R93); the model answers the unchanged state. DESIGN CHOICE (log entry 1), unsafe for claims that
count steps. -/
def runOver (s : State) : Result := .next s

/-! ### The two streams as views of the event list -/

/-- The output event in an event, if it is one. -/
def Event.output? : Event → Option (OutKind × Byte)
  | .out kind v => some (kind, v)
  | .rpt _ => none

/-- The report in an event, if it is one. -/
def Event.report? : Event → Option Report
  | .out _ _ => none
  | .rpt r => some r

/-- The output stream (10_state.md R37). -/
def State.outputs (s : State) : List (OutKind × Byte) := s.events.filterMap Event.output?

/-- The report stream (60_exceptions.md R220). -/
def State.reports (s : State) : List Report := s.events.filterMap Event.report?

/-- The numeric code of a condition (60_exceptions.md R220; D22, log entry 16). -/
def Condition.number : Condition → BitVec 3
  | .unrecognised => 1
  | .divideByZero => 2
  | .regIndex => 3
  | .addrRange => 4
  | .placeholder => 5

end Sys2Proof.Machine
end

