-- ==== Sys2Proof/Machine/Operands.lean ====
section
/-!
DEFINITION. Operand forms (30_encoding.md R85 to R87). There are two: a byte used as a register index, checked before
any effect of the instruction, and LDI's immediate byte, used as it stands.
-/
namespace Sys2Proof.Machine

/-- `ridx(v)`: the register a byte selects, or none above 7 (R86). -/
def ridx (v : Byte) : Option Reg := if h : v.toNat < Config.nReg then some ⟨v.toNat, h⟩ else none

/-- Check one register-index operand, then go on with the register; above 7 the step raises RegIndexFault and does
nothing else (R86; 60_exceptions.md R223). -/
def withReg (a : Byte) (s : State) (k : Reg → Result) : Result :=
  match ridx a with
  | some r => k r
  | none => .next (s.regIndexOut a)

/-- Check two register-index operands, `a` first, then `b` (60_exceptions.md R226 items 6, 7). -/
def withRegs (a b : Byte) (s : State) (k : Reg → Reg → Result) : Result :=
  withReg a s fun p => withReg b s fun q => k p q

/-- The immediate operand: the byte itself, neither extended nor checked (R87). -/
def immediate (b : Byte) : Byte := b

end Sys2Proof.Machine
end

