-- ==== Sys2Proof/Machine/Alu.lean ====
section
/-!
DEFINITION. The thirteen ALU instructions (42_alu.md R130 to R146). Each result is the exact integer result reduced by
`wrap8`; operands are unsigned. Signedness of DIV, MOD and SHR and the shift amounts of 8 or more are UNVERIFIED (D12,
D13, log entry 11), unsafe. All thirteen write back (R144).
-/
namespace Sys2Proof.Machine

/-! ### The ALU's functions (R145) -/

def aluAdd (u v : Byte) : Byte := wrap8 ((u.toNat : Int) + v.toNat)
def aluSub (u v : Byte) : Byte := wrap8 ((u.toNat : Int) - v.toNat)
def aluMul (u v : Byte) : Byte := wrap8 ((u.toNat : Int) * v.toNat)
/-- Unsigned quotient, rounded toward zero; used only with a non-zero divisor. -/
def aluDiv (u v : Byte) : Byte := wrap8 ((u.toNat / v.toNat : Nat) : Int)
/-- Unsigned remainder; used only with a non-zero divisor. -/
def aluMod (u v : Byte) : Byte := wrap8 ((u.toNat % v.toNat : Nat) : Int)
def aluAnd (u v : Byte) : Byte := u &&& v
def aluOr (u v : Byte) : Byte := u ||| v
def aluXor (u v : Byte) : Byte := u ^^^ v
/-- Left shift by the whole value of `v`: 0 when `v` is 8 or more. -/
def aluShl (u v : Byte) : Byte := wrap8 ((u.toNat <<< v.toNat : Nat) : Int)
/-- Logical right shift by the whole value of `v`: 0 when `v` is 8 or more. -/
def aluShr (u v : Byte) : Byte := wrap8 ((u.toNat >>> v.toNat : Nat) : Int)
/-- `wrap8(~u)`, the complement of an integer taken to 8 bits (R139). -/
def aluNot (u : Byte) : Byte := wrap8 (~~~(u.toNat : Int))
def aluInc (u : Byte) : Byte := wrap8 ((u.toNat : Int) + 1)
def aluDec (u : Byte) : Byte := wrap8 ((u.toNat : Int) - 1)

/-! ### The shared shapes (R130) -/

/-- A binary ALU instruction: both sources are read, then `x[a]` is written, then the step advances. -/
def aluBinary (op : Byte) (f : Byte → Byte → Byte) (a b : Byte) (s : State) : Result :=
  withRegs a b s fun d r => .next ((s.setReg d (f (s.reg d) (s.reg r))).advance op)

/-- A unary ALU instruction. -/
def aluUnary (op : Byte) (f : Byte → Byte) (a : Byte) (s : State) : Result :=
  withReg a s fun d => .next ((s.setReg d (f (s.reg d))).advance op)

/-- The zero-divisor path (R146): report, halt, advance; nothing is written. Where `pc` ends is UNVERIFIED (D25, log
entry 13). -/
def State.zeroDivisor (s : State) (op : Byte) : State :=
  { s.report ⟨.divideByZero, s.pc, op⟩ with halted := true }.advance op

/-- DIV and MOD: after both index checks and before any write, a zero divisor halts the run (R146, D30). -/
def aluDivide (op : Byte) (f : Byte → Byte → Byte) (a b : Byte) (s : State) : Result :=
  withRegs a b s fun d r =>
    if s.reg r = 0 then .next (s.zeroDivisor op)
    else .next ((s.setReg d (f (s.reg d) (s.reg r))).advance op)

/-! ### The instructions -/

/-- ADD (R131). -/
def execAdd (a b : Byte) (s : State) : Result := aluBinary (Instr.add a b).opcode aluAdd a b s
/-- SUB (R132). -/
def execSub (a b : Byte) (s : State) : Result := aluBinary (Instr.sub a b).opcode aluSub a b s
/-- MUL (R133). -/
def execMul (a b : Byte) (s : State) : Result := aluBinary (Instr.mul a b).opcode aluMul a b s
/-- DIV (R134). -/
def execDiv (a b : Byte) (s : State) : Result := aluDivide (Instr.div a b).opcode aluDiv a b s
/-- MOD (R135). -/
def execMod (a b : Byte) (s : State) : Result := aluDivide (Instr.mod a b).opcode aluMod a b s
/-- AND (R136). -/
def execAnd (a b : Byte) (s : State) : Result := aluBinary (Instr.and a b).opcode aluAnd a b s
/-- OR (R137). -/
def execOr (a b : Byte) (s : State) : Result := aluBinary (Instr.or a b).opcode aluOr a b s
/-- XOR (R138). -/
def execXor (a b : Byte) (s : State) : Result := aluBinary (Instr.xor a b).opcode aluXor a b s
/-- SHL (R140). -/
def execShl (a b : Byte) (s : State) : Result := aluBinary (Instr.shl a b).opcode aluShl a b s
/-- SHR (R141). -/
def execShr (a b : Byte) (s : State) : Result := aluBinary (Instr.shr a b).opcode aluShr a b s
/-- NOT (R139). -/
def execNot (a : Byte) (s : State) : Result := aluUnary (Instr.not a).opcode aluNot a s
/-- INC (R142). -/
def execInc (a : Byte) (s : State) : Result := aluUnary (Instr.inc a).opcode aluInc a s
/-- DEC (R143). -/
def execDec (a : Byte) (s : State) : Result := aluUnary (Instr.dec a).opcode aluDec a s

end Sys2Proof.Machine
end

