-- ==== Sys2Proof/Machine/Flags.lean ====
section
/-!
DEFINITION. The flags register (10_state.md R30 to R32): what CMP writes and what the conditional jumps read. No other
instruction touches it (R31).
-/
namespace Sys2Proof.Machine

/-- `FL` with only Equal set: bit 0. -/
def flEqual : FlWord := 0x01

/-- `FL` with only Greater set: bit 1. -/
def flGreater : FlWord := 0x02

/-- `FL` with only Less set: bit 2. -/
def flLess : FlWord := 0x04

/-- `FL.E`. -/
def State.flagE (s : State) : Bool := s.fl.getLsbD 0

/-- `FL.G`. -/
def State.flagG (s : State) : Bool := s.fl.getLsbD 1

/-- `FL.L`. -/
def State.flagL (s : State) : Bool := s.fl.getLsbD 2

/-- The whole of `FL` after comparing `u` with `v`: exactly one outcome bit, the rest clear (43_compare.md R160). The
ordering is unsigned: UNVERIFIED (D11, R161, log entry 11), unsafe. -/
def compareFlags (u v : Byte) : FlWord :=
  if u = v then flEqual else if u.toNat < v.toNat then flLess else flGreater

/-- `FL <- v`, all eight bits. -/
def State.setFl (s : State) (v : FlWord) : State := { s with fl := v }

/-- Condition of JEQ (44_control_transfer.md R172). -/
def State.condEq (s : State) : Bool := s.flagE

/-- Condition of JNE (R173). -/
def State.condNe (s : State) : Bool := !s.flagE

/-- Condition of JGT (R174). -/
def State.condGt (s : State) : Bool := s.flagG

/-- Condition of JLT (R175). -/
def State.condLt (s : State) : Bool := s.flagL

/-- Condition of JGE (R176). -/
def State.condGe (s : State) : Bool := s.flagG || s.flagE

/-- Condition of JLE (R177). -/
def State.condLe (s : State) : Bool := s.flagL || s.flagE

end Sys2Proof.Machine
end

