-- ==== Sys2Proof/Machine/Compare.lean ====
section
/-!
DEFINITION. CMP (43_compare.md R160, R161).
-/
namespace Sys2Proof.Machine

/-- CMP (R160): all of `FL` is written from the unsigned ordering of `x[a]` and `x[b]`. -/
def execCmp (a b : Byte) (s : State) : Result :=
  withRegs a b s fun p q => .next ((s.setFl (compareFlags (s.reg p) (s.reg q))).advance (Instr.cmp a b).opcode)

end Sys2Proof.Machine
end

