-- ==== Sys2Proof/Machine/Control.lean ====
section
/-!
DEFINITION. JMP, the conditional jumps, CALL and RET (44_control_transfer.md R170 to R182). JGT, JLT, JGE, JLE, CALL and
RET are UNVERIFIED (general knowledge K5, K6, D18, D19, log entry 9), unsafe.
-/
namespace Sys2Proof.Machine

/-- A conditional jump: the register index is checked before the condition is looked at; taken, `pc <- x[a]`; not
taken, the sequential advance (R172, R180). -/
def jumpIf (cond : Bool) (op a : Byte) (s : State) : Result :=
  withReg a s fun t => .next (if cond then s.setPc (s.reg t) else s.advance op)

/-- JMP (R171). -/
def execJmp (a : Byte) (s : State) : Result := withReg a s fun t => .next (s.setPc (s.reg t))
/-- JEQ (R172). -/
def execJeq (a : Byte) (s : State) : Result := jumpIf s.condEq (Instr.jeq a).opcode a s
/-- JNE (R173). -/
def execJne (a : Byte) (s : State) : Result := jumpIf s.condNe (Instr.jne a).opcode a s
/-- JGT (R174). -/
def execJgt (a : Byte) (s : State) : Result := jumpIf s.condGt (Instr.jgt a).opcode a s
/-- JLT (R175). -/
def execJlt (a : Byte) (s : State) : Result := jumpIf s.condLt (Instr.jlt a).opcode a s
/-- JGE (R176). -/
def execJge (a : Byte) (s : State) : Result := jumpIf s.condGe (Instr.jge a).opcode a s
/-- JLE (R177). -/
def execJle (a : Byte) (s : State) : Result := jumpIf s.condLe (Instr.jle a).opcode a s

/-- CALL (R178): with a return address of 256 nothing happens but AddrRangeFault; else SP goes down, `pc + 2` is
written at the new SP, and `pc <- x[a]`, the register read after the SP update. -/
def execCall (a : Byte) (s : State) : Result :=
  withReg a s fun t =>
    let link := s.pc.toNat + opLength (Instr.call a).opcode
    if Config.memSize ≤ link then .next (s.addrRangeOut s.pc (Instr.call a).opcode)
    else
      let u := s.setSp s.pushAddr
      .next ((u.memWrite u.sp (wrap8 link)).setPc (u.reg t))

/-- RET (R179): `pc <- Mem[x[7]]`, then SP goes up. -/
def execRet (s : State) : Result := .next ((s.setPc (s.memRead s.sp)).setSp s.popSp)

end Sys2Proof.Machine
end

