-- ==== Sys2Proof/Machine/DataMovement.lean ====
section
/-!
DEFINITION. LDI, LD, ST (40_data_movement.md R110 to R112). LD and ST are UNVERIFIED (general knowledge K4, D20, log
entry 9), unsafe.
-/
namespace Sys2Proof.Machine

/-- LDI (R110): `x[a] <- b`. -/
def execLdi (a b : Byte) (s : State) : Result :=
  withReg a s fun d => .next ((s.setReg d (immediate b)).advance (Instr.ldi a b).opcode)

/-- LD (R111): `x[a] <- Mem[x[b]]`. -/
def execLd (a b : Byte) (s : State) : Result :=
  withRegs a b s fun d p => .next ((s.setReg d (s.memRead (s.reg p))).advance (Instr.ld a b).opcode)

/-- ST (R112): `Mem[x[a]] <- x[b]`. -/
def execSt (a b : Byte) (s : State) : Result :=
  withRegs a b s fun p r => .next ((s.memWrite (s.reg p) (s.reg r)).advance (Instr.st a b).opcode)

end Sys2Proof.Machine
end

