-- ==== Sys2Proof/Machine/Output.lean ====
section
/-!
DEFINITION. PRN, PRA (41_output.md R120 to R122). The event is emitted before the program counter advances, so it is
kept when the successor address is out of range. PRA is UNVERIFIED (general knowledge K7, D21, log entry 9), unsafe.
-/
namespace Sys2Proof.Machine

/-- PRN (R120): emit `Out(num, x[a])`. -/
def execPrn (a : Byte) (s : State) : Result :=
  withReg a s fun r => .next ((s.emit .num (s.reg r)).advance (Instr.prn a).opcode)

/-- PRA (R121): emit `Out(chr, x[a])`. -/
def execPra (a : Byte) (s : State) : Result :=
  withReg a s fun r => .next ((s.emit .chr (s.reg r)).advance (Instr.pra a).opcode)

end Sys2Proof.Machine
end

