-- ==== Sys2Proof/Machine/Stack.lean ====
section
/-!
DEFINITION. PUSH, POP (45_stack.md R190, R191), each in the order of its two assignments.
-/
namespace Sys2Proof.Machine

/-- PUSH (R190): SP goes down, then `x[a]`, read after the SP update, is written at the new SP. -/
def execPush (a : Byte) (s : State) : Result :=
  withReg a s fun r =>
    let u := s.setSp s.pushAddr
    .next ((u.memWrite u.sp (u.reg r)).advance (Instr.push a).opcode)

/-- POP (R191): `x[a] <- Mem[x[7]]`, then `x[7] <- wrap8(x[7] + 1)` on what `x[7]` then holds. -/
def execPop (a : Byte) (s : State) : Result :=
  withReg a s fun d =>
    let u := s.setReg d (s.memRead s.sp)
    .next ((u.setSp u.popSp).advance (Instr.pop a).opcode)

end Sys2Proof.Machine
end

