-- ==== Sys2Proof/Machine/System.lean ====
section
/-!
DEFINITION. HLT, NOP, INT, IRET, and what an unrecognised opcode byte does (46_system.md R200 to R204).
-/
namespace Sys2Proof.Machine

/-- HLT (R200): `Halted <- true`, then the advance, which never faults once `Halted` is set. Where `pc` ends is UNVERIFIED
(D25, log entry 13). -/
def execHlt (s : State) : Result := .next ({ s with halted := true }.advance Instr.hlt.opcode)

/-- NOP (R201). -/
def execNop (s : State) : Result := .next (s.advance Instr.nop.opcode)

/-- INT (R202): PlaceholderFault, whatever the operand byte; UNVERIFIED (D17, log entry 10), safe. -/
def execInt (a : Byte) (s : State) : Result := .next (s.placeholder (Instr.int a).opcode)

/-- IRET (R203): PlaceholderFault; UNVERIFIED (D17, log entry 10), safe. -/
def execIret (s : State) : Result := .next (s.placeholder Instr.iret.opcode)

/-- An unrecognised opcode byte (R204): report, then skip by the length its top bits give, whatever its bit 4 is; the run
goes on. UNVERIFIED for bytes with bit 4 set (D16) and for the length 4 (D27), log entry 14, unsafe. -/
def execUnrecognised (op : Byte) (s : State) : Result :=
  .next ((s.report ⟨.unrecognised, s.pc, op⟩).advance op)

/-- A declared operand byte lies above address 255: AddrRangeFault before any effect (10_state.md R28 case 1). -/
def fetchOutOfRange (op : Byte) (s : State) : Result := .next (s.addrRangeOut s.pc op)

end Sys2Proof.Machine
end

