-- ==== Sys2Proof/Machine/Fetch.lean ====
section
/-!
DEFINITION. Fetching an instruction's bytes (30_encoding.md R93; 20_memory.md R52, R53, R60), and placing one for the
host.
-/
namespace Sys2Proof.Machine

/-- The opcode byte at `pc`. -/
def State.opcodeByte (s : State) : Byte := s.memRead s.pc

/-- The cells at `addr`, `addr + 1`, .. : `count` of them, fewer where the address space ends (10_state.md R28). -/
def Memory.bytesFrom (m : Memory) : Nat → Nat → List Byte
  | _, 0 => []
  | addr, count + 1 => if addr < Config.memSize then m.read addr :: Memory.bytesFrom m (addr + 1) count else []

/-- The operand bytes the opcode declares, as far as the address space holds them. Undeclared bytes are not read
(R60; D4, log entry 22). -/
def State.operandBytes (s : State) : List Byte := s.mem.bytesFrom (s.pc.toNat + 1) (operandCount s.opcodeByte)

/-- The instruction at `pc`, or why there is none. -/
def fetch (s : State) : Decoded := decode s.opcodeByte s.operandBytes

/-- Write bytes at rising addresses from `addr`; bytes above address 255 have no cell and are dropped. -/
def Memory.place (m : Memory) : Nat → List Byte → Memory
  | _, [] => m
  | addr, v :: vs => if addr < Config.memSize then Memory.place (m.write addr v) (addr + 1) vs else m

/-- Put the bytes of an instruction where the next step fetches: at `pc` and up (log entry 5). -/
def State.placeAtPc (s : State) (bytes : List Byte) : State := { s with mem := s.mem.place s.pc.toNat bytes }

end Sys2Proof.Machine
end

