-- ==== Sys2Proof/Machine/Step.lean ====
section
/-!
DEFINITION. One step of the core: one whole instruction (30_encoding.md R93, 00_scope.md R12), with the checks in the
order of 60_exceptions.md R226.
-/
namespace Sys2Proof.Machine

/-- One step (R93). -/
def step (s : State) : Host.Outcome State Fault Refusal :=
  if s.stopped then runOver s
  else
    match fetch s with
    | .instr i _ => exec i s
    | .unrecognised op _ => execUnrecognised op s
    | .truncated op => fetchOutOfRange op s

/-- `s` with the instruction whose bits are `w` stored where the next step fetches it, the bits from `nbits` up zero, as
four bytes (the longest form, 30_encoding.md R84). -/
def State.withFetchWord (s : State) (nbits w : Nat) : State :=
  s.placeAtPc (tableByte nbits w 0 :: tableTail nbits w)

end Sys2Proof.Machine
end

