-- ==== Sys2Proof/Machine/Bus.lean ====
section
/-!
DEFINITION. The byte accesses one step makes on the memory interface, in order (20_memory.md R52, R61, R66). They are a
description of a step, not state: nothing is observable inside a step (00_scope.md R12).
-/
namespace Sys2Proof.Machine

/-- One access: `mem_we` clear with `mem_rdata`, or `mem_we` set with `mem_wdata` (10_state.md R40). -/
inductive Access where
  | read (addr : Addr) (value : Byte)
  | write (addr : Addr) (value : Byte)
deriving DecidableEq, Repr

/-- The fetch of a step: the opcode, then, if they all exist, the first two declared operand bytes (30_encoding.md R93:
the third of a four-byte form is never read). -/
def State.fetchAccesses (s : State) : List Access :=
  let n := operandCount s.opcodeByte
  let at1 := wrap8 ((s.pc.toNat : Int) + 1)
  let at2 := wrap8 ((s.pc.toNat : Int) + 2)
  .read s.pc s.opcodeByte ::
    (if Config.memSize ≤ s.pc.toNat + n then []
     else (if 1 ≤ n then [.read at1 (s.memRead at1)] else []) ++ (if 2 ≤ n then [.read at2 (s.memRead at2)] else []))

/-- The data access of an instruction, if it makes one: LD, ST, PUSH, POP, CALL and RET do, and none when a condition
stops them first (R52; 60_exceptions.md R226). -/
def dataAccesses (i : Instr) (s : State) : List Access :=
  match i with
  | .nop => []
  | .hlt => []
  | .ret => [.read s.sp (s.memRead s.sp)]
  | .iret => []
  | .push a =>
    match ridx a with
    | some r => [.write s.pushAddr ((s.setSp s.pushAddr).reg r)]
    | none => []
  | .pop a =>
    match ridx a with
    | some _ => [.read s.sp (s.memRead s.sp)]
    | none => []
  | .prn _ => []
  | .pra _ => []
  | .call a =>
    match ridx a with
    | some _ =>
      if Config.memSize ≤ s.pc.toNat + 2 then [] else [.write s.pushAddr (wrap8 ((s.pc.toNat : Int) + 2))]
    | none => []
  | .int _ => []
  | .jmp _ => []
  | .jeq _ => []
  | .jne _ => []
  | .jgt _ => []
  | .jlt _ => []
  | .jle _ => []
  | .jge _ => []
  | .inc _ => []
  | .dec _ => []
  | .not _ => []
  | .ldi _ _ => []
  | .ld a b =>
    match ridx a, ridx b with
    | some _, some q => [.read (s.reg q) (s.memRead (s.reg q))]
    | _, _ => []
  | .st a b =>
    match ridx a, ridx b with
    | some p, some q => [.write (s.reg p) (s.reg q)]
    | _, _ => []
  | .add _ _ => []
  | .sub _ _ => []
  | .mul _ _ => []
  | .div _ _ => []
  | .mod _ _ => []
  | .cmp _ _ => []
  | .and _ _ => []
  | .or _ _ => []
  | .xor _ _ => []
  | .shl _ _ => []
  | .shr _ _ => []

/-- All accesses of one step, in order. -/
def stepAccesses (s : State) : List Access :=
  if s.stopped then []
  else
    s.fetchAccesses ++
      match fetch s with
      | .instr i _ => dataAccesses i s
      | .unrecognised _ _ => []
      | .truncated _ => []

/-- Memory after one access. -/
def Access.applyTo (m : Memory) : Access → Memory
  | .read _ _ => m
  | .write addr v => m.write addr.toNat v

end Sys2Proof.Machine
end

