-- ==== Sys2Proof/Machine/Loader.lean ====
section
/-!
DEFINITION. The external loader's contract with the core (20_memory.md R67; 70_reset_and_hazards.md R250, R251). Reading the
image from text is outside the core (00_scope.md R5).
-/
namespace Sys2Proof.Machine

/-- A program image the loader accepts: at most 256 words, each in 0..255 (R67; D32, log entry 23). -/
def imageOk (words : List Nat) : Bool := decide (words.length ≤ Config.memSize) && words.all fun w => decide (w < 2 ^ Config.xlen)

/-- Write the image to consecutive addresses from `LOAD_BASE`, word `i` to `Mem[i]`; none for an image the loader
refuses, of which the core sees nothing. -/
def State.loadImage (s : State) (words : List Nat) : Option State :=
  if imageOk words then some { s with mem := s.mem.place Config.loadBase (words.map (BitVec.ofNat Config.xlen)) } else none

/-- The start-of-run state of an image: reset, then load (R251). -/
def startOfRun (words : List Nat) : Option State := State.reset.loadImage words

end Sys2Proof.Machine
end

