-- ==== Sys2Proof/Machine/Ports.lean ====
section
/-!
DEFINITION. The abstract port list (10_state.md R40, 60_exceptions.md R238) as functions of the state and its events, and
the optional trace hook (R236). No timing is attached to any port and no rule depends on them; one `tick` per step is a
DESIGN CHOICE (log entry 19), safe.
-/
namespace Sys2Proof.Machine

/-- One beat of `out_valid`, `out_kind`, `out_data`. -/
structure OutBeat where
  /-- 0 = `num`, 1 = `chr` -/
  kind : BitVec 1
  data : Byte
deriving DecidableEq, Repr

/-- One beat of `rpt_valid`, `rpt_code`, `rpt_at`, `rpt_info`. -/
structure RptBeat where
  code : BitVec 3
  addr : Pc
  info : Byte
deriving DecidableEq, Repr

/-- `out_kind` of an output kind. -/
def OutKind.bit : OutKind → BitVec 1
  | .num => 0
  | .chr => 1

/-- The output beat of an event, if it is one. -/
def Event.outBeat? : Event → Option OutBeat
  | .out kind v => some ⟨kind.bit, v⟩
  | .rpt _ => none

/-- The report beat of an event, if it is one. -/
def Event.rptBeat? : Event → Option RptBeat
  | .out _ _ => none
  | .rpt r => some ⟨r.code.number, r.addr, r.info⟩

/-- Level `halted`. -/
def State.haltedPort (s : State) : Bool := s.halted

/-- Level `faulted`. -/
def State.faultedPort (s : State) : Bool := s.faulted.isSome

/-- One clock of the abstract block: `rst` forces the reset state; the core steps only while `run` is asserted and it is
neither halted nor faulted (R40). -/
def tick (rst run : Bool) (s : State) : Result :=
  if rst then .next State.reset else if run then step s else .next s

/-- What the optional trace hook shows of a state: the opcode, the next two bytes and the registers (R236). -/
structure TraceRecord where
  opcode : Byte
  next1 : Byte
  next2 : Byte
  regs : Vector Byte Config.nReg
deriving DecidableEq, Repr

/-- The trace hook, read only. Above address 255 it shows 0 (93_implementation_defined.md U2 allows it; DESIGN CHOICE, log
entry 21), safe: no rule reads it. -/
def State.trace (s : State) : TraceRecord :=
  { opcode := s.opcodeByte
    next1 := (s.mem.bytesFrom (s.pc.toNat + 1) 2).getD 0 0
    next2 := (s.mem.bytesFrom (s.pc.toNat + 1) 2).getD 1 0
    regs := s.regs }

end Sys2Proof.Machine
end

