-- ==== Sys2Proof/Safety.lean ====
section
/-!
DEFINITION. What counts as a safe run, how a run ends, the invariant of the machine, and the terms in which the statements
of Certificates/Slice0/Obligations.lean speak of the spec's rules.
-/
namespace Sys2Proof.Machine

/-! ### The end of a run (00_scope.md R13, 70_reset_and_hazards.md R253) -/

/-- The three outcomes of a run that ends. -/
inductive EndOfRun where
  | normalHalt
  | divisionByZeroHalt
  | failedRun
deriving DecidableEq, Repr

/-- How the run ended, if this state is a final one. -/
def State.endOfRun (s : State) : Option EndOfRun :=
  if s.faulted.isSome then some .failedRun
  else if s.halted then
    match s.reports.getLast? with
    | some r => if r.code = .divideByZero then some .divisionByZeroHalt else some .normalHalt
    | none => some .normalHalt
  else none

/-- A safe state: no fault. A faulted state is never a correct final state of a program (10_state.md R34). -/
def State.safe (s : State) : Bool := s.faulted.isNone

/-- A number of steps the host's step budget allows; every number, as `STEP_LIMIT` is none (log entry 20). -/
def withinStepLimit (n : Nat) : Prop :=
  match Config.stepLimit with
  | none => True
  | some k => n ≤ k

/-- The run from `s` ends in `t`. -/
def RunEndsIn (s t : State) : Prop :=
  ∃ n, withinStepLimit n ∧ Sys2Proof.core.run n s = .next t ∧ t.stopped = true

/-- A program is safe when its run ends in a safe state. -/
def SafeRun (words : List Nat) : Prop := ∃ s t, startOfRun words = some s ∧ RunEndsIn s t ∧ t.safe = true

/-! ### The invariant -/

/-- A condition that ends the run: every one but Unrecognised (60_exceptions.md R220). -/
def Condition.endsRun : Condition → Bool
  | .unrecognised => false
  | .divideByZero => true
  | .regIndex => true
  | .addrRange => true
  | .placeholder => true

/-- A condition of the class fault (60_exceptions.md R220). -/
def Condition.isFault : Condition → Bool
  | .unrecognised => false
  | .divideByZero => false
  | .regIndex => true
  | .addrRange => true
  | .placeholder => true

/-- The report of a condition that ends the run. -/
def Event.endsRun : Event → Bool
  | .out _ _ => false
  | .rpt r => r.code.endsRun

/-- `FL` is one of its four legal values (10_state.md R32). -/
def State.flLegal (s : State) : Bool := s.fl == 0x00 || s.fl == 0x01 || s.fl == 0x02 || s.fl == 0x04

/-- No report that ends the run stands before the last event: nothing follows the end (60_exceptions.md R230). -/
def State.nothingAfterEnd (s : State) : Bool := s.events.dropLast.all fun e => !e.endsRun

/-- `Faulted`, `Halted` and the last event agree: a fault record is the last report, is of class fault and excludes
`Halted`; a last report of class fault has its record; a last DivideByZero report has `Halted` set (R220). -/
def State.endConsistent (s : State) : Bool :=
  match s.faulted with
  | some r => r.code.isFault && s.events.getLast? == some (.rpt r) && !s.halted
  | none =>
    match s.events.getLast? with
    | some (.rpt r) => !r.code.endsRun || (r.code == .divideByZero && s.halted)
    | _ => true

/-- The invariant: memory in canonical form, `FL` legal, and the run's end recorded consistently. -/
def State.Inv (s : State) : Prop :=
  s.mem.wf = true ∧ s.flLegal = true ∧ s.nothingAfterEnd = true ∧ s.endConsistent = true

/-! ### The terms of the statements -/

/-- The state after the sequential end of a step whose effects gave `u`, the opcode being `op` and the length `len`
(10_state.md R28, 30_encoding.md R93): written out, independently of `State.advance`. -/
def advanced (op : Byte) (len : Nat) (u : State) : State :=
  if u.pc.toNat + len ≤ 255 ∨ u.halted = true then { u with pc := BitVec.ofNat 8 (u.pc.toNat + len) }
  else
    { u with
      pc := BitVec.ofNat 8 (u.pc.toNat + len)
      faulted := some ⟨.addrRange, u.pc, op⟩
      events := u.events ++ [.rpt ⟨.addrRange, u.pc, op⟩] }

/-- The state after a fault raised before any effect: the report, `Faulted`, and nothing else (60_exceptions.md R220). -/
def failed (code : Condition) (info : Byte) (s : State) : State :=
  { s with faulted := some ⟨code, s.pc, info⟩, events := s.events ++ [.rpt ⟨code, s.pc, info⟩] }

/-- The instruction, or the unrecognised byte, that the step at `s` fetches has completed entirely, `u` being `s` with all its
effects and `pc` not yet moved (60_exceptions.md R229). For an instruction the effects are those it has at address 0, where its
successor lies in memory; for an unrecognised byte they are its report. -/
def CompletedWith (s u : State) : Prop :=
  (∃ i rest, fetch s = .instr i rest ∧
    exec i { s with pc := 0 } = .next { u with pc := BitVec.ofNat 8 (opLength s.opcodeByte) }) ∨
  (∃ rest, fetch s = .unrecognised s.opcodeByte rest ∧
    u = { s with events := s.events ++ [.rpt ⟨.unrecognised, s.pc, s.opcodeByte⟩] })

/-- The value `v` stored to `addr` is seen by every fetch of that address from `t` on: in `t`, and in any state `u` whose cell
`addr` still holds what it holds in `t`, it is the opcode byte if `pc` is `addr`, and each declared operand byte that lies
at `addr` (20_memory.md R64). -/
def StoreSeen (t : State) (addr : Addr) (v : Byte) : Prop :=
  t.memRead addr = v ∧
  ∀ u : State, u.memRead addr = t.memRead addr →
    (u.pc = addr → u.opcodeByte = v) ∧
    ∀ k, k < operandCount u.opcodeByte → u.pc.toNat + 1 + k = addr.toNat → u.operandBytes[k]? = some v

/-- `s` with register `r` holding `v`. -/
def holding (s : State) (r : Reg) (v : Byte) : State := { s with regs := s.regs.set r.val v r.isLt }

/-- The clause every operand-carrying instruction shares: with `n` declared operand bytes and one of them above address
255, a step raises AddrRangeFault and nothing else (10_state.md R28 case 1). -/
def TopClause (op : Byte) (n : Nat) : Prop :=
  ∀ s : State, s.stopped = false → s.opcodeByte = op → 255 < s.pc.toNat + n → step s = .next (failed .addrRange op s)

/-- The rule of an instruction with one register operand (format R): its encoding; on a legal index it answers `fin`;
on an index above 7 it raises RegIndexFault and nothing else; and the operand byte may lie above address 255. The opcode byte
is general knowledge K1 (log entry 8), the two fault clauses are decisions D14 and D3 (log entry 10). -/
def RegisterRule (ctor : Byte → Instr) (op : Byte) (fin : Reg → State → State) : Prop :=
  (∀ a, encode (ctor a) = [op, a]) ∧
  (∀ a (ha : a.toNat < 8) s, exec (ctor a) s = .next (fin ⟨a.toNat, ha⟩ s)) ∧
  (∀ a s, 7 < a.toNat → exec (ctor a) s = .next (failed .regIndex a s)) ∧
  TopClause op 1

/-- The same for two register operands (format RR); `a` is checked before `b`. -/
def TwoRegisterRule (ctor : Byte → Byte → Instr) (op : Byte) (fin : Reg → Reg → State → State) : Prop :=
  (∀ a b, encode (ctor a b) = [op, a, b]) ∧
  (∀ a b (ha : a.toNat < 8) (hb : b.toNat < 8) s, exec (ctor a b) s = .next (fin ⟨a.toNat, ha⟩ ⟨b.toNat, hb⟩ s)) ∧
  (∀ a b s, 7 < a.toNat → exec (ctor a b) s = .next (failed .regIndex a s)) ∧
  (∀ a b s, a.toNat < 8 → 7 < b.toNat → exec (ctor a b) s = .next (failed .regIndex b s)) ∧
  TopClause op 2

/-- A binary ALU instruction whose result has the integer value `f x[a] x[b]` (42_alu.md R130). -/
def AluRule (ctor : Byte → Byte → Instr) (op : Byte) (f : Nat → Nat → Nat) : Prop :=
  TwoRegisterRule ctor op fun d r s =>
    advanced op 3 (holding s d (BitVec.ofNat 8 (f (s.reg d).toNat (s.reg r).toNat)))

/-- A unary ALU instruction whose result has the integer value `f x[a]`. -/
def AluUnaryRule (ctor : Byte → Instr) (op : Byte) (f : Nat → Nat) : Prop :=
  RegisterRule ctor op fun d s => advanced op 2 (holding s d (BitVec.ofNat 8 (f (s.reg d).toNat)))

/-- DIV and MOD: a zero divisor reports, halts and writes nothing (42_alu.md R146). -/
def DivideRule (ctor : Byte → Byte → Instr) (op : Byte) (f : Nat → Nat → Nat) : Prop :=
  TwoRegisterRule ctor op fun d r s =>
    if s.reg r = 0 then
      { s with
        halted := true
        pc := BitVec.ofNat 8 (s.pc.toNat + 3)
        events := s.events ++ [.rpt ⟨.divideByZero, s.pc, op⟩] }
    else advanced op 3 (holding s d (BitVec.ofNat 8 (f (s.reg d).toNat (s.reg r).toNat)))

/-- A conditional jump on a condition of `FL` (44_control_transfer.md R172, R180). -/
def JumpRule (ctor : Byte → Instr) (op : Byte) (cond : State → Bool) : Prop :=
  RegisterRule ctor op fun r s => if cond s then { s with pc := s.reg r } else advanced op 2 s

/-- The instructions that read `FL`: the six conditional jumps (10_state.md R31). -/
def readsFlags : Instr → Bool
  | .nop => false
  | .hlt => false
  | .ret => false
  | .iret => false
  | .push _ => false
  | .pop _ => false
  | .prn _ => false
  | .pra _ => false
  | .call _ => false
  | .int _ => false
  | .jmp _ => false
  | .jeq _ => true
  | .jne _ => true
  | .jgt _ => true
  | .jlt _ => true
  | .jle _ => true
  | .jge _ => true
  | .inc _ => false
  | .dec _ => false
  | .not _ => false
  | .ldi _ _ => false
  | .ld _ _ => false
  | .st _ _ => false
  | .add _ _ => false
  | .sub _ _ => false
  | .mul _ _ => false
  | .div _ _ => false
  | .mod _ _ => false
  | .cmp _ _ => false
  | .and _ _ => false
  | .or _ _ => false
  | .xor _ _ => false
  | .shl _ _ => false
  | .shr _ _ => false

/-- What every instruction leaves of the run status and the streams, unless it raises a condition: the events only grow,
by reports that carry the step's own address or by outputs, and `Faulted` changes only to such a report. -/
def StatusFrame (s t : State) : Prop :=
  (∃ l, t.events = s.events ++ l ∧ ∀ r, .rpt r ∈ l → r.addr = s.pc) ∧
  (t.faulted = s.faulted ∨ ∃ r, t.faulted = some r ∧ r.addr = s.pc ∧ t.events.getLast? = some (.rpt r))

end Sys2Proof.Machine
end

