-- ==== Sys2Proof/Certificates/Slice0/Obligations.lean ====
section
/-!
DEFINITION. The statements for the provers. The terms they use (`advanced`, `failed`, `holding`, the rule shapes) are written
out in Safety.lean. What rests on a decision of the spec or on general knowledge says so in its docstring, with the log entry.
Three things stand in almost every statement and are said here once: the opcode bytes are general knowledge (K1, D26, log entry
8); RegIndexFault is decision D14 and AddrRangeFault decision D3 (log entry 10); their codes and order are D22, D23 (log entry
16).
-/

open Sys2Proof Sys2Proof.Machine

/-! ### Data movement and output -/

/-- 40_data_movement.md R110: LDI loads its immediate byte, any value, into `x[a]`. -/
def Obligations.LoadImmediateSetsRegister : Prop :=
  (∀ a b, encode (.ldi a b) = [0x82, a, b]) ∧
  (∀ a b (ha : a.toNat < 8) s, exec (.ldi a b) s = .next (advanced 0x82 3 (holding s ⟨a.toNat, ha⟩ b))) ∧
  (∀ a b s, 7 < a.toNat → exec (.ldi a b) s = .next (failed .regIndex a s)) ∧
  TopClause 0x82 2

/-- 40_data_movement.md R111 (general knowledge K4, D20, log entry 9): LD loads the cell that `x[b]` addresses. -/
def Obligations.LoadReadsAddressedCell : Prop :=
  TwoRegisterRule .ld 0x83 fun d p s => advanced 0x83 3 (holding s d (s.memRead (s.reg p)))

/-- 40_data_movement.md R112 (general knowledge K4, D20, log entry 9): ST stores `x[b]` in the cell that `x[a]` addresses. -/
def Obligations.StoreWritesAddressedCell : Prop :=
  TwoRegisterRule .st 0x84 fun p r s => advanced 0x84 3 { s with mem := s.mem.write (s.reg p).toNat (s.reg r) }

/-- 41_output.md R120: PRN emits `x[a]` as a number and changes nothing else but `pc`. -/
def Obligations.PrintNumberEmitsRegister : Prop :=
  RegisterRule .prn 0x47 fun r s => advanced 0x47 2 { s with events := s.events ++ [.out .num (s.reg r)] }

/-- 41_output.md R121 (general knowledge K7, D21, log entry 9): PRA emits `x[a]` as a character code. -/
def Obligations.PrintCharacterEmitsRegister : Prop :=
  RegisterRule .pra 0x48 fun r s => advanced 0x48 2 { s with events := s.events ++ [.out .chr (s.reg r)] }

/-! ### ALU -/

/-- 42_alu.md R131: ADD writes the sum modulo 256. -/
def Obligations.AddWritesWrappedSum : Prop := AluRule .add 0xA0 fun u v => u + v

/-- 42_alu.md R132: a negative difference wraps upward. -/
def Obligations.SubWritesWrappedDifference : Prop := AluRule .sub 0xA1 fun u v => u + 256 - v

/-- 42_alu.md R133: MUL keeps the low byte of the product. -/
def Obligations.MulWritesLowByteOfProduct : Prop := AluRule .mul 0xA2 fun u v => u * v

/-- 42_alu.md R134, R135, R146: unsigned quotient and remainder (D12, log entry 11); a zero divisor reports, halts and
writes nothing, and `pc` then stands three further (D25, D30, log entry 13). -/
def Obligations.DivideAndRemainderOrHalt : Prop :=
  DivideRule .div 0xA3 (fun u v => u / v) ∧ DivideRule .mod 0xA4 (fun u v => u % v)

/-- 42_alu.md R136: AND, bit by bit. -/
def Obligations.AndWritesBitwiseAnd : Prop := AluRule .and 0xA8 fun u v => u &&& v

/-- 42_alu.md R137: OR, bit by bit. -/
def Obligations.OrWritesBitwiseOr : Prop := AluRule .or 0xAA fun u v => u ||| v

/-- 42_alu.md R138: XOR, bit by bit. -/
def Obligations.XorWritesBitwiseExclusiveOr : Prop := AluRule .xor 0xAB fun u v => u ^^^ v

/-- 42_alu.md R139: `255 - x[a]`. -/
def Obligations.NotWritesComplement : Prop := AluUnaryRule .not 0x69 fun u => 255 - u

/-- 42_alu.md R140: multiplication by a power of two; 0 for an amount of 8 or more, which is decision D13 (log entry 11). -/
def Obligations.ShlShiftsByWholeAmount : Prop := AluRule .shl 0xAC fun u v => if v < 8 then u * 2 ^ v else 0

/-- 42_alu.md R141: division by a power of two (logical), 0 for an amount of 8 or more; decision D13 (log entry 11). -/
def Obligations.ShrShiftsInZeros : Prop := AluRule .shr 0xAD fun u v => if v < 8 then u / 2 ^ v else 0

/-- 42_alu.md R142: INC adds 1 modulo 256. -/
def Obligations.IncAddsOneWrapping : Prop := AluUnaryRule .inc 0x65 fun u => u + 1

/-- 42_alu.md R143: subtracting 1 is adding 255 modulo 256. -/
def Obligations.DecSubtractsOneWrapping : Prop := AluUnaryRule .dec 0x66 fun u => u + 255

/-! ### Compare and jumps -/

/-- 43_compare.md R160, R161: CMP writes all of `FL` from the unsigned ordering (D11, log entry 11), in the layout of D10
(log entry 7). -/
def Obligations.CompareSetsOneOutcomeFlag : Prop :=
  TwoRegisterRule .cmp 0xA7 fun p q s =>
    advanced 0xA7 3
      { s with
        fl := if s.reg p = s.reg q then 0x01 else if (s.reg p).toNat < (s.reg q).toNat then 0x04 else 0x02 }

/-- 44_control_transfer.md R171: JMP goes to `x[a]`; its successor is not used, so it never faults on one. -/
def Obligations.JumpGoesToRegister : Prop := RegisterRule .jmp 0x54 fun r s => { s with pc := s.reg r }

/-- 44_control_transfer.md R172: JEQ is taken when E is set; not taken it is a two-byte advance. -/
def Obligations.JumpIfEqual : Prop := JumpRule .jeq 0x55 fun s => s.flagE

/-- 44_control_transfer.md R173: JNE is taken when E is clear. -/
def Obligations.JumpIfNotEqual : Prop := JumpRule .jne 0x56 fun s => !s.flagE

/-- 44_control_transfer.md R174 to R177 (general knowledge K5, D18, log entry 9). -/
def Obligations.OrderedJumpsTestTheirFlags : Prop :=
  JumpRule .jgt 0x57 (fun s => s.flagG) ∧ JumpRule .jlt 0x58 (fun s => s.flagL) ∧
  JumpRule .jge 0x5A (fun s => s.flagG || s.flagE) ∧ JumpRule .jle 0x59 (fun s => s.flagL || s.flagE)

/-- 44_control_transfer.md R178 (general knowledge K6, D19, log entry 9): CALL pushes `pc + 2` and goes to `x[a]`, read
after the SP update, which wraps by decision D5 (log entry 15); without a return address inside memory it faults before any
effect (D3, log entry 10). -/
def Obligations.CallPushesReturnAddress : Prop :=
  RegisterRule .call 0x50 fun r s =>
    if 255 < s.pc.toNat + 2 then failed .addrRange 0x50 s
    else
      let u := holding s 7 (BitVec.ofNat 8 ((s.reg 7).toNat + 255))
      { u with mem := u.mem.write (u.reg 7).toNat (BitVec.ofNat 8 (s.pc.toNat + 2)), pc := u.reg r }

/-- 44_control_transfer.md R179 (general knowledge K6, D19, log entry 9): RET pops `pc`. -/
def Obligations.ReturnPopsProgramCounter : Prop :=
  encode .ret = [0x11] ∧
  ∀ s, exec .ret s =
    .next { holding s 7 (BitVec.ofNat 8 ((s.reg 7).toNat + 1)) with pc := s.memRead (s.reg 7) }

/-! ### Stack -/

/-- 45_stack.md R190: SP goes down by one, then `x[a]`, read after that, is written where SP points. -/
def Obligations.PushWritesBelowStackPointer : Prop :=
  RegisterRule .push 0x45 fun r s =>
    let u := holding s 7 (BitVec.ofNat 8 ((s.reg 7).toNat + 255))
    advanced 0x45 2 { u with mem := u.mem.write (u.reg 7).toNat (u.reg r) }

/-- 45_stack.md R191: `x[a]` takes the cell SP points at, then `x[7]`, whatever it then holds, goes up by one. -/
def Obligations.PopReadsThenRaisesStackPointer : Prop :=
  RegisterRule .pop 0x46 fun d s =>
    let u := holding s d (s.memRead (s.reg 7))
    advanced 0x46 2 (holding u 7 (BitVec.ofNat 8 ((u.reg 7).toNat + 1)))

/-! ### System -/

/-- 46_system.md R200: HLT sets `Halted` and never faults; where `pc` ends is decision D25 (log entry 13). -/
def Obligations.HaltSetsHalted : Prop :=
  encode .hlt = [0x01] ∧
  ∀ s, exec .hlt s = .next { s with halted := true, pc := BitVec.ofNat 8 (s.pc.toNat + 1) }

/-- 46_system.md R201: NOP changes nothing but `pc`, and faults only on a successor of 256. -/
def Obligations.NopOnlyAdvances : Prop := encode .nop = [0x00] ∧ ∀ s, exec .nop s = .next (advanced 0x00 1 s)

/-- 46_system.md R202, R203, 60_exceptions.md R225 (decision D17, log entry 10): INT, whatever its operand byte, and IRET
raise PlaceholderFault and change nothing else; INT's operand byte must still lie in memory. -/
def Obligations.PlaceholdersFail : Prop :=
  (∀ a, encode (.int a) = [0x52, a]) ∧ encode .iret = [0x13] ∧
  (∀ a s, exec (.int a) s = .next (failed .placeholder 0x52 s)) ∧
  (∀ s, exec .iret s = .next (failed .placeholder 0x13 s)) ∧
  TopClause 0x52 1

/-- 46_system.md R204 (decisions D16, D27, log entry 14): a byte that no instruction has as its opcode is reported and
skipped by the length its top bits give; if the declared bytes do not fit, AddrRangeFault comes first. -/
def Obligations.UnrecognisedByteIsSkipped : Prop :=
  ∀ s : State, s.stopped = false → (∀ i : Instr, i.opcode ≠ s.opcodeByte) →
    (s.pc.toNat + s.opcodeByte.toNat / 64 ≤ 255 →
      step s = .next (advanced s.opcodeByte (s.opcodeByte.toNat / 64 + 1)
        { s with events := s.events ++ [.rpt ⟨.unrecognised, s.pc, s.opcodeByte⟩] })) ∧
    (255 < s.pc.toNat + s.opcodeByte.toNat / 64 → step s = .next (failed .addrRange s.opcodeByte s))

/-! ### The step -/

/-- 30_encoding.md R93: where the cells from `pc` up hold an instruction, a step is its meaning. -/
def Obligations.StepRunsInstructionAtPc : Prop :=
  (∀ s i rest, s.stopped = false → fetch s = .instr i rest → step s = exec i s) ∧
  (∀ (s : State) (i : Instr), s.stopped = false → s.pc.toNat + (encode i).length ≤ 256 →
    (∀ k, k < (encode i).length → s.mem.read (s.pc.toNat + k) = (encode i).getD k 0) →
    fetch s = .instr i [] ∧ step s = exec i s)

/-- 10_state.md R33, R34: once `Halted` or `Faulted` is set the state never changes again. That a step then answers the
unchanged state is the model's choice (log entry 1). -/
def Obligations.FinishedRunNeverChanges : Prop :=
  ∀ s : State, s.stopped = true → ∀ n, Sys2Proof.core.run n s = .next s

/-- The step function is total: no step is refused and none is left without a next state. That a stopped state, from which
70_reset_and_hazards.md R253 defines no step, answers itself is the model's choice (DESIGN CHOICE, log entry 1); that a fault of
the spec is a next state with `Faulted` set is the model's reading (DEDUCED, log entry 2). -/
def Obligations.EveryStepAnswersNextState : Prop := ∀ s, ∃ t, step s = .next t

/-- 10_state.md R31: `FL` is written by CMP only, all eight bits whatever it held before, and read by the conditional jumps
only: every other instruction does the same whatever `FL` holds, and CMP's outcome does not depend on it. -/
def Obligations.FlagsWrittenByCompareReadByJumps : Prop :=
  (∀ i s t, exec i s = .next t → t.fl ≠ s.fl → ∃ a b, i = .cmp a b) ∧
  (∀ s t, step s = .next t → t.fl ≠ s.fl → ∃ a b rest, fetch s = .instr (.cmp a b) rest) ∧
  (∀ a b s f, a.toNat < 8 → b.toNat < 8 → exec (.cmp a b) { s with fl := f } = exec (.cmp a b) s) ∧
  (∀ a b s t, a.toNat < 8 → b.toNat < 8 → exec (.cmp a b) s = .next t →
    (t.fl = flEqual ∨ t.fl = flGreater ∨ t.fl = flLess)) ∧
  (∀ i s t f, readsFlags i = false → (∀ a b, i ≠ .cmp a b) → exec i s = .next t →
    exec i { s with fl := f } = .next { t with fl := f })

/-- 10_state.md R33: `Halted` is set only by HLT or by DIV or MOD with a zero divisor, and is never cleared by a step. -/
def Obligations.HaltedOnlyByHaltOrZeroDivisor : Prop :=
  ∀ s t, step s = .next t →
    (s.halted = true → t.halted = true) ∧
    (s.halted = false → t.halted = true →
      ∃ i rest, fetch s = .instr i rest ∧
        (i = .hlt ∨ ∃ a b q, (i = .div a b ∨ i = .mod a b) ∧ ridx b = some q ∧ s.reg q = 0))

/-- 60_exceptions.md R220, R226: the streams only grow, by at most two events a step, and each report carries the address
of the step's instruction. -/
def Obligations.StepAppendsAtMostTwoEvents : Prop :=
  ∀ s t, step s = .next t →
    ∃ l, t.events = s.events ++ l ∧ l.length ≤ 2 ∧ ∀ r, Event.rpt r ∈ l → r.addr = s.pc

/-- 10_state.md R37, 41_output.md R122: a step adds to the output stream exactly what PRN and PRA emit. -/
def Obligations.OutputOnlyByPrintInstructions : Prop :=
  ∀ s t, s.stopped = false → step s = .next t →
    t.outputs = s.outputs ++
      match fetch s with
      | .instr (.prn a) _ => if h : a.toNat < 8 then [(.num, s.reg ⟨a.toNat, h⟩)] else []
      | .instr (.pra a) _ => if h : a.toNat < 8 then [(.chr, s.reg ⟨a.toNat, h⟩)] else []
      | _ => []

/-- 60_exceptions.md R229, R224: a fault names the instruction at `pc`. Either that instruction had no effect at all, and
then a range fault is one of an operand byte above address 255 or of a CALL without a return address; or it is the successor
fault of an instruction or unrecognised byte that ends at address 255, and then every effect has happened. -/
def Obligations.FaultsArePrecise : Prop :=
  ∀ s t r, s.stopped = false → step s = .next t → t.faulted = some r →
    r.addr = s.pc ∧
    ((t = failed r.code r.info s ∧
        (r.code = .addrRange → 255 < s.pc.toNat + operandCount s.opcodeByte ∨
          (255 < s.pc.toNat + 2 ∧ ∃ a rest, fetch s = .instr (.call a) rest))) ∨
      (r.code = .addrRange ∧ r.info = s.opcodeByte ∧ s.pc.toNat + opLength s.opcodeByte = 256 ∧
        ∃ u : State, u.pc = s.pc ∧ u.faulted = none ∧ CompletedWith s u ∧
          t = { failed .addrRange s.opcodeByte u with pc := 0 }))

/-- 70_reset_and_hazards.md R253: a step ends a run normally exactly when it runs HLT, by a division-by-zero halt exactly when
it runs DIV or MOD with legal indices and a zero divisor, and as a failed run exactly when it sets `Faulted`. -/
def Obligations.RunEndsInOneOfThreeWays : Prop :=
  ∀ s t, s.Inv → s.stopped = false → step s = .next t →
    (t.endOfRun = some .normalHalt ↔ ∃ rest, fetch s = .instr .hlt rest) ∧
    (t.endOfRun = some .divisionByZeroHalt ↔
      ∃ i rest a b p q, fetch s = .instr i rest ∧ (i = .div a b ∨ i = .mod a b) ∧ ridx a = some p ∧ ridx b = some q ∧
        s.reg q = 0) ∧
    (t.endOfRun = some .failedRun ↔ t.faulted ≠ none)

/-! ### Invariants -/

/-- Every step from a state that meets the invariant gives a state that meets it. -/
def Obligations.StepKeepsInvariant : Prop := ∀ s t, s.Inv → step s = .next t → t.Inv

/-- The state after reset meets the invariant. -/
def Obligations.ResetMeetsInvariant : Prop := State.reset.Inv

/-- Every state of every run of every loaded image meets the invariant. -/
def Obligations.EveryRunKeepsInvariant : Prop :=
  ∀ words s n t, startOfRun words = some s → Sys2Proof.core.run n s = .next t → t.Inv

/-- 10_state.md R39, 70_reset_and_hazards.md R250 (decisions D6 to D9, log entry 12). -/
def Obligations.ResetValues : Prop :=
  (∀ r : Reg, r ≠ 7 → State.reset.reg r = 0) ∧ State.reset.reg 7 = 0xF4 ∧ State.reset.pc = 0 ∧ State.reset.fl = 0 ∧
  State.reset.halted = false ∧ State.reset.faulted = none ∧ (∀ c, State.reset.memRead c = 0) ∧
  State.reset.outputs = [] ∧ State.reset.reports = [] ∧ State.reset.events = []

/-! ### Encoding -/

/-- 30_encoding.md R80, R85, R88: the decoder reads back every instruction from its encoding, whatever follows it, at every
value of every operand byte (the opcode values are general knowledge K1, log entry 8). -/
def Obligations.DecodeReadsBackEncode : Prop :=
  ∀ i op rest after, encode i ++ after = op :: rest → decode op rest = .instr i after

/-- The other direction: what the decoder accepts is the encoding of what it answers. -/
def Obligations.EncodeReadsBackDecode : Prop :=
  ∀ op rest i after, decode op rest = .instr i after → encode i ++ after = op :: rest

/-- 30_encoding.md R81: the operand count of any byte is its two top bits and the length is one more; an instruction has
that length, and the decoder takes that many bytes. -/
def Obligations.LengthFromTopBits : Prop :=
  (∀ op : Byte, operandCount op = op.toNat >>> 6 ∧ opLength op = operandCount op + 1) ∧
  (∀ i : Instr, (encode i).length = opLength i.opcode) ∧
  (∀ op rest i after, decode op rest = .instr i after → (op :: rest).length = opLength op + after.length) ∧
  (∀ op rest after, decode op rest = .unrecognised op after → (op :: rest).length = opLength op + after.length)

/-- 30_encoding.md R82 (over the opcode values of general knowledge K1, log entry 8): bit 4 marks exactly the jumps, CALL, RET,
INT and IRET; every other recognised opcode ends with the advance, and so does a conditional jump whose condition is false
(44_control_transfer.md R172 to R177; the conditions of JGT, JLT, JLE and JGE are general knowledge K5, D18, log entry 9). -/
def Obligations.SetsPcBitMarksControlTransfer : Prop :=
  (∀ i : Instr, setsPcBit i.opcode = true ↔
    (i = .ret ∨ i = .iret ∨ ∃ a, i ∈ [.call a, .int a, .jmp a, .jeq a, .jne a, .jgt a, .jlt a, .jle a, .jge a])) ∧
  (∀ i s t, setsPcBit i.opcode = false → i.wellFormed = true → exec i s = .next t →
    ∃ u : State, u.pc = s.pc ∧ t = advanced i.opcode (opLength i.opcode) u) ∧
  (∀ a s, a.toNat < 8 →
    (s.flagE = false → exec (.jeq a) s = .next (advanced 0x55 2 s)) ∧
    (s.flagE = true → exec (.jne a) s = .next (advanced 0x56 2 s)) ∧
    (s.flagG = false → exec (.jgt a) s = .next (advanced 0x57 2 s)) ∧
    (s.flagL = false → exec (.jlt a) s = .next (advanced 0x58 2 s)) ∧
    (s.flagL = false → s.flagE = false → exec (.jle a) s = .next (advanced 0x59 2 s)) ∧
    (s.flagG = false → s.flagE = false → exec (.jge a) s = .next (advanced 0x5A 2 s)))

/-- 30_encoding.md R89, R90: 34 recognised bytes; 222 unrecognised ones, 60, 48, 50 and 64 by their top bits (over the opcode
values of general knowledge K1, log entry 8). -/
def Obligations.UnrecognisedBytesCounted : Prop :=
  let count := fun k => ((List.range 64).filter fun j => (lookupOpcode (BitVec.ofNat 8 (64 * k + j))).isNone).length
  opcodeTable.length = 34 ∧ count 0 = 60 ∧ count 1 = 48 ∧ count 2 = 50 ∧ count 3 = 64

/-- Words written out from 30_encoding.md R88 decode to the instruction the spec's examples give (95_test_vectors.md 2.2 to
2.9); the opcode values are general knowledge K1 (log entry 8). -/
def Obligations.SpecWordsDecode : Prop :=
  decodeTableWord 24 0b000010000000000010000010 = some (.ldi 0 8) ∧
  decodeTableWord 24 0b000000010000000010100000 = some (.add 0 1) ∧
  decodeTableWord 16 0b0000001101010100 = some (.jmp 3) ∧
  decodeTableWord 16 0b0000000001000111 = some (.prn 0) ∧
  decodeTableWord 8 0b00010001 = some .ret ∧
  decodeTableWord 8 0b00000010 = none

/-! ### Memory, stack and ordering -/

/-- 20_memory.md R51: a read after a write gives the value written, every other cell and all other state is unchanged. -/
def Obligations.MemoryReadAfterWrite : Prop :=
  ∀ (s : State) (addr v c : Byte), s.mem.wf = true →
    (s.memWrite addr v).memRead c = (if c = addr then v else s.memRead c) ∧
    s.memWrite addr v = { s with mem := (s.memWrite addr v).mem } ∧ (s.memWrite addr v).mem.wf = true

/-- 45_stack.md R192: PUSH then POP of the same register, not R7, gives back its value and the stack pointer, and the cell
below the stack pointer holds the value. -/
def Obligations.PushPopRoundTrip : Prop :=
  ∀ a (ha : a.toNat < 8) s, a.toNat ≠ 7 → s.mem.wf = true →
    ∃ u v, exec (.push a) s = .next u ∧ exec (.pop a) u = .next v ∧ (∀ r : Reg, v.reg r = s.reg r) ∧
      v.memRead (BitVec.ofNat 8 ((s.reg 7).toNat + 255)) = s.reg ⟨a.toNat, ha⟩

/-- 44_control_transfer.md R178, R179 (general knowledge K6, log entry 9): RET right after CALL comes back to the instruction
after the CALL with every register as before. -/
def Obligations.ReturnUndoesCall : Prop :=
  ∀ a s, a.toNat < 8 → s.mem.wf = true → s.pc.toNat + 2 ≤ 255 →
    ∃ u v, exec (.call a) s = .next u ∧ exec .ret u = .next v ∧ v.pc.toNat = s.pc.toNat + 2 ∧
      ∀ r : Reg, v.reg r = s.reg r

/-- 20_memory.md R61, R64: what ST, PUSH or CALL stores is seen by every later fetch of the address, the next one among them,
as an opcode byte and as an operand byte. PUSH and CALL store below the stack pointer, which wraps by decision D5 (log entry
15); CALL is general knowledge K6, ST general knowledge K4 (log entry 9). -/
def Obligations.StoreSeenByNextFetch : Prop :=
  (∀ a b (ha : a.toNat < 8) (hb : b.toNat < 8) s t, s.mem.wf = true → exec (.st a b) s = .next t →
    StoreSeen t (s.reg ⟨a.toNat, ha⟩) (s.reg ⟨b.toNat, hb⟩)) ∧
  (∀ a (ha : a.toNat < 8) s t, s.mem.wf = true → exec (.push a) s = .next t →
    StoreSeen t s.pushAddr ((holding s 7 s.pushAddr).reg ⟨a.toNat, ha⟩)) ∧
  (∀ a s t, a.toNat < 8 → s.mem.wf = true → s.pc.toNat + 2 ≤ 255 → exec (.call a) s = .next t →
    StoreSeen t s.pushAddr (BitVec.ofNat 8 (s.pc.toNat + 2)))

/-- 43_compare.md R160, R161 with 44_control_transfer.md R172 to R177: the six jumps after a CMP are taken on the unsigned
ordering of the two registers (D11, D18, log entries 9, 11). -/
def Obligations.CompareThenJumpFollowsOrder : Prop :=
  ∀ a b c (ha : a.toNat < 8) (hb : b.toNat < 8) (hc : c.toNat < 8) (s : State),
    ∃ t, exec (.cmp a b) s = .next t ∧
      let u := (s.reg ⟨a.toNat, ha⟩).toNat
      let v := (s.reg ⟨b.toNat, hb⟩).toNat
      let go : State := { t with pc := s.reg ⟨c.toNat, hc⟩ }
      exec (.jeq c) t = .next (if u = v then go else advanced 0x55 2 t) ∧
      exec (.jne c) t = .next (if u ≠ v then go else advanced 0x56 2 t) ∧
      exec (.jgt c) t = .next (if v < u then go else advanced 0x57 2 t) ∧
      exec (.jlt c) t = .next (if u < v then go else advanced 0x58 2 t) ∧
      exec (.jge c) t = .next (if v ≤ u then go else advanced 0x5A 2 t) ∧
      exec (.jle c) t = .next (if u ≤ v then go else advanced 0x59 2 t)

/-- 20_memory.md R52: memory after a step is memory before it with the step's bus writes applied, and nothing else. -/
def Obligations.BusWritesAreTheOnlyMemoryChanges : Prop :=
  ∀ s t, step s = .next t → t.mem = (stepAccesses s).foldl Access.applyTo s.mem

/-- 20_memory.md R67, 70_reset_and_hazards.md R250, R251 (D32, log entry 23): the loader accepts exactly the images of at most
256 words of 0..255; word `i` stands in cell `i`, every other cell is 0, and all else is as after reset. -/
def Obligations.LoaderPlacesImage : Prop :=
  (∀ words, (startOfRun words).isSome = true ↔ words.length ≤ 256 ∧ ∀ w ∈ words, w ≤ 255) ∧
  (∀ words s, startOfRun words = some s →
    (∀ k, k < 256 → s.mem.read k = BitVec.ofNat 8 (words.getD k 0)) ∧ s = { State.reset with mem := s.mem } ∧
    s.opcodeByte = BitVec.ofNat 8 (words.getD 0 0))

/-! ### Frames -/

/-- 10_state.md R25, R31, 20_memory.md R52: LDI, LD and the ALU instructions change no register but `x[a]`, no flag and no byte
of memory; only DIV and MOD may halt. -/
def Obligations.RegisterResultFrame : Prop :=
  ∀ (a b : Byte) (i : Instr),
    i ∈ [.ldi a b, .ld a b, .add a b, .sub a b, .mul a b, .div a b, .mod a b, .and a b, .or a b, .xor a b, .shl a b,
      .shr a b, .not a, .inc a, .dec a] →
    ∀ s t, exec i s = .next t →
      (∀ r : Reg, r.val ≠ a.toNat → t.reg r = s.reg r) ∧ t.fl = s.fl ∧ (∀ c, t.memRead c = s.memRead c) ∧
      t.outputs = s.outputs ∧ (t.halted = s.halted ∨ i = .div a b ∨ i = .mod a b) ∧ StatusFrame s t

/-- 10_state.md R25, R31, 20_memory.md R52: NOP, HLT, INT, IRET, PRN, PRA, CMP and the jumps change no register and no byte of
memory; only CMP changes `FL`, only HLT halts, only PRN and PRA emit output. -/
def Obligations.NoRegisterNoMemoryFrame : Prop :=
  ∀ (a b : Byte) (i : Instr),
    i ∈ [.nop, .hlt, .int a, .iret, .prn a, .pra a, .cmp a b, .jmp a, .jeq a, .jne a, .jgt a, .jlt a, .jge a, .jle a] →
    ∀ s t, exec i s = .next t →
      (∀ r : Reg, t.reg r = s.reg r) ∧ (∀ c, t.memRead c = s.memRead c) ∧ (t.fl = s.fl ∨ i = .cmp a b) ∧
      (t.halted = s.halted ∨ i = .hlt) ∧ (t.outputs = s.outputs ∨ i = .prn a ∨ i = .pra a) ∧ StatusFrame s t

/-- 10_state.md R25, R31, 20_memory.md R52: ST changes only the cell `x[a]` addresses and no register; PUSH and CALL change only
`x[7]` and the cell below the stack pointer; with an illegal index, or a CALL without a return address, none of them changes
any cell. -/
def Obligations.StoringFrame : Prop :=
  (∀ a b s t, exec (.st a b) s = .next t →
    (∀ r : Reg, t.reg r = s.reg r) ∧ t.fl = s.fl ∧ t.halted = s.halted ∧ t.outputs = s.outputs ∧ StatusFrame s t ∧
    (∀ p addr, ridx a = some p → s.reg p = addr → ∀ c, c ≠ addr → t.memRead c = s.memRead c) ∧
    (ridx a = none ∨ ridx b = none → ∀ c, t.memRead c = s.memRead c)) ∧
  (∀ a i s t, (i = .push a ∨ i = .call a) → exec i s = .next t →
    (∀ r : Reg, r ≠ 7 → t.reg r = s.reg r) ∧ t.fl = s.fl ∧ t.halted = s.halted ∧ t.outputs = s.outputs ∧
    StatusFrame s t ∧ (∀ addr, s.pushAddr = addr → ∀ c, c ≠ addr → t.memRead c = s.memRead c) ∧
    (ridx a = none ∨ (i = .call a ∧ 255 < s.pc.toNat + 2) →
      (∀ r : Reg, t.reg r = s.reg r) ∧ ∀ c, t.memRead c = s.memRead c))

/-- 10_state.md R25, R31, 20_memory.md R52: POP changes no register but `x[a]` and `x[7]`, RET none but `x[7]`; neither changes a
byte of memory or a flag. -/
def Obligations.PoppingFrame : Prop :=
  (∀ a s t, exec (.pop a) s = .next t →
    (∀ r : Reg, r.val ≠ a.toNat → r ≠ 7 → t.reg r = s.reg r) ∧ t.fl = s.fl ∧ (∀ c, t.memRead c = s.memRead c) ∧
    t.halted = s.halted ∧ t.outputs = s.outputs ∧ StatusFrame s t ∧
    (ridx a = none → ∀ r : Reg, t.reg r = s.reg r)) ∧
  (∀ s t, exec .ret s = .next t →
    (∀ r : Reg, r ≠ 7 → t.reg r = s.reg r) ∧ t.fl = s.fl ∧ (∀ c, t.memRead c = s.memRead c) ∧ t.halted = s.halted ∧
    t.faulted = s.faulted ∧ t.events = s.events)
end

