-- ==== Sys2Proof/Laws/PerInstr.lean ====
section
/-!
SUPPORT. Facts about every instruction as syntax, one lemma per constructor: its operand bytes are as many as its opcode's top
bits say (30_encoding.md R81, R89), and its opcode is a row of the table that builds it back (R88).
-/

/-- The opcode's bits 7:6 count the operand bytes. -/
def Sys2Proof.Laws.OperandCount.Statement (i : Sys2Proof.Instr) : Prop :=
  i.operands.length = Sys2Proof.operandCount i.opcode

/-- The opcode's row of the table builds the instruction from its own operand bytes. -/
def Sys2Proof.Laws.TableRow.Statement (i : Sys2Proof.Instr) : Prop :=
  ∃ row, Sys2Proof.lookupOpcode i.opcode = some row ∧ row.build (i.operands.getD 0 0) (i.operands.getD 1 0) = i

theorem Sys2Proof.Laws.OperandCount.nop : Sys2Proof.Laws.OperandCount.Statement .nop := by
  simp [Sys2Proof.Laws.OperandCount.Statement, Sys2Proof.Instr.operands, Sys2Proof.Instr.opcode, Sys2Proof.Config.opcodes,
    Sys2Proof.operandCount]
theorem Sys2Proof.Laws.OperandCount.hlt : Sys2Proof.Laws.OperandCount.Statement .hlt := by
  simp [Sys2Proof.Laws.OperandCount.Statement, Sys2Proof.Instr.operands, Sys2Proof.Instr.opcode, Sys2Proof.Config.opcodes,
    Sys2Proof.operandCount]
theorem Sys2Proof.Laws.OperandCount.ret : Sys2Proof.Laws.OperandCount.Statement .ret := by
  simp [Sys2Proof.Laws.OperandCount.Statement, Sys2Proof.Instr.operands, Sys2Proof.Instr.opcode, Sys2Proof.Config.opcodes,
    Sys2Proof.operandCount]
theorem Sys2Proof.Laws.OperandCount.iret : Sys2Proof.Laws.OperandCount.Statement .iret := by
  simp [Sys2Proof.Laws.OperandCount.Statement, Sys2Proof.Instr.operands, Sys2Proof.Instr.opcode, Sys2Proof.Config.opcodes,
    Sys2Proof.operandCount]
theorem Sys2Proof.Laws.OperandCount.push (a : Sys2Proof.Byte) : Sys2Proof.Laws.OperandCount.Statement (.push a) := by
  simp [Sys2Proof.Laws.OperandCount.Statement, Sys2Proof.Instr.operands, Sys2Proof.Instr.opcode, Sys2Proof.Config.opcodes,
    Sys2Proof.operandCount]
theorem Sys2Proof.Laws.OperandCount.pop (a : Sys2Proof.Byte) : Sys2Proof.Laws.OperandCount.Statement (.pop a) := by
  simp [Sys2Proof.Laws.OperandCount.Statement, Sys2Proof.Instr.operands, Sys2Proof.Instr.opcode, Sys2Proof.Config.opcodes,
    Sys2Proof.operandCount]
theorem Sys2Proof.Laws.OperandCount.prn (a : Sys2Proof.Byte) : Sys2Proof.Laws.OperandCount.Statement (.prn a) := by
  simp [Sys2Proof.Laws.OperandCount.Statement, Sys2Proof.Instr.operands, Sys2Proof.Instr.opcode, Sys2Proof.Config.opcodes,
    Sys2Proof.operandCount]
theorem Sys2Proof.Laws.OperandCount.pra (a : Sys2Proof.Byte) : Sys2Proof.Laws.OperandCount.Statement (.pra a) := by
  simp [Sys2Proof.Laws.OperandCount.Statement, Sys2Proof.Instr.operands, Sys2Proof.Instr.opcode, Sys2Proof.Config.opcodes,
    Sys2Proof.operandCount]
theorem Sys2Proof.Laws.OperandCount.call (a : Sys2Proof.Byte) : Sys2Proof.Laws.OperandCount.Statement (.call a) := by
  simp [Sys2Proof.Laws.OperandCount.Statement, Sys2Proof.Instr.operands, Sys2Proof.Instr.opcode, Sys2Proof.Config.opcodes,
    Sys2Proof.operandCount]
theorem Sys2Proof.Laws.OperandCount.int (a : Sys2Proof.Byte) : Sys2Proof.Laws.OperandCount.Statement (.int a) := by
  simp [Sys2Proof.Laws.OperandCount.Statement, Sys2Proof.Instr.operands, Sys2Proof.Instr.opcode, Sys2Proof.Config.opcodes,
    Sys2Proof.operandCount]
theorem Sys2Proof.Laws.OperandCount.jmp (a : Sys2Proof.Byte) : Sys2Proof.Laws.OperandCount.Statement (.jmp a) := by
  simp [Sys2Proof.Laws.OperandCount.Statement, Sys2Proof.Instr.operands, Sys2Proof.Instr.opcode, Sys2Proof.Config.opcodes,
    Sys2Proof.operandCount]
theorem Sys2Proof.Laws.OperandCount.jeq (a : Sys2Proof.Byte) : Sys2Proof.Laws.OperandCount.Statement (.jeq a) := by
  simp [Sys2Proof.Laws.OperandCount.Statement, Sys2Proof.Instr.operands, Sys2Proof.Instr.opcode, Sys2Proof.Config.opcodes,
    Sys2Proof.operandCount]
theorem Sys2Proof.Laws.OperandCount.jne (a : Sys2Proof.Byte) : Sys2Proof.Laws.OperandCount.Statement (.jne a) := by
  simp [Sys2Proof.Laws.OperandCount.Statement, Sys2Proof.Instr.operands, Sys2Proof.Instr.opcode, Sys2Proof.Config.opcodes,
    Sys2Proof.operandCount]
theorem Sys2Proof.Laws.OperandCount.jgt (a : Sys2Proof.Byte) : Sys2Proof.Laws.OperandCount.Statement (.jgt a) := by
  simp [Sys2Proof.Laws.OperandCount.Statement, Sys2Proof.Instr.operands, Sys2Proof.Instr.opcode, Sys2Proof.Config.opcodes,
    Sys2Proof.operandCount]
theorem Sys2Proof.Laws.OperandCount.jlt (a : Sys2Proof.Byte) : Sys2Proof.Laws.OperandCount.Statement (.jlt a) := by
  simp [Sys2Proof.Laws.OperandCount.Statement, Sys2Proof.Instr.operands, Sys2Proof.Instr.opcode, Sys2Proof.Config.opcodes,
    Sys2Proof.operandCount]
theorem Sys2Proof.Laws.OperandCount.jle (a : Sys2Proof.Byte) : Sys2Proof.Laws.OperandCount.Statement (.jle a) := by
  simp [Sys2Proof.Laws.OperandCount.Statement, Sys2Proof.Instr.operands, Sys2Proof.Instr.opcode, Sys2Proof.Config.opcodes,
    Sys2Proof.operandCount]
theorem Sys2Proof.Laws.OperandCount.jge (a : Sys2Proof.Byte) : Sys2Proof.Laws.OperandCount.Statement (.jge a) := by
  simp [Sys2Proof.Laws.OperandCount.Statement, Sys2Proof.Instr.operands, Sys2Proof.Instr.opcode, Sys2Proof.Config.opcodes,
    Sys2Proof.operandCount]
theorem Sys2Proof.Laws.OperandCount.inc (a : Sys2Proof.Byte) : Sys2Proof.Laws.OperandCount.Statement (.inc a) := by
  simp [Sys2Proof.Laws.OperandCount.Statement, Sys2Proof.Instr.operands, Sys2Proof.Instr.opcode, Sys2Proof.Config.opcodes,
    Sys2Proof.operandCount]
theorem Sys2Proof.Laws.OperandCount.dec (a : Sys2Proof.Byte) : Sys2Proof.Laws.OperandCount.Statement (.dec a) := by
  simp [Sys2Proof.Laws.OperandCount.Statement, Sys2Proof.Instr.operands, Sys2Proof.Instr.opcode, Sys2Proof.Config.opcodes,
    Sys2Proof.operandCount]
theorem Sys2Proof.Laws.OperandCount.not (a : Sys2Proof.Byte) : Sys2Proof.Laws.OperandCount.Statement (.not a) := by
  simp [Sys2Proof.Laws.OperandCount.Statement, Sys2Proof.Instr.operands, Sys2Proof.Instr.opcode, Sys2Proof.Config.opcodes,
    Sys2Proof.operandCount]
theorem Sys2Proof.Laws.OperandCount.ldi (a b : Sys2Proof.Byte) : Sys2Proof.Laws.OperandCount.Statement (.ldi a b) := by
  simp [Sys2Proof.Laws.OperandCount.Statement, Sys2Proof.Instr.operands, Sys2Proof.Instr.opcode, Sys2Proof.Config.opcodes,
    Sys2Proof.operandCount]
theorem Sys2Proof.Laws.OperandCount.ld (a b : Sys2Proof.Byte) : Sys2Proof.Laws.OperandCount.Statement (.ld a b) := by
  simp [Sys2Proof.Laws.OperandCount.Statement, Sys2Proof.Instr.operands, Sys2Proof.Instr.opcode, Sys2Proof.Config.opcodes,
    Sys2Proof.operandCount]
theorem Sys2Proof.Laws.OperandCount.st (a b : Sys2Proof.Byte) : Sys2Proof.Laws.OperandCount.Statement (.st a b) := by
  simp [Sys2Proof.Laws.OperandCount.Statement, Sys2Proof.Instr.operands, Sys2Proof.Instr.opcode, Sys2Proof.Config.opcodes,
    Sys2Proof.operandCount]
theorem Sys2Proof.Laws.OperandCount.add (a b : Sys2Proof.Byte) : Sys2Proof.Laws.OperandCount.Statement (.add a b) := by
  simp [Sys2Proof.Laws.OperandCount.Statement, Sys2Proof.Instr.operands, Sys2Proof.Instr.opcode, Sys2Proof.Config.opcodes,
    Sys2Proof.operandCount]
theorem Sys2Proof.Laws.OperandCount.sub (a b : Sys2Proof.Byte) : Sys2Proof.Laws.OperandCount.Statement (.sub a b) := by
  simp [Sys2Proof.Laws.OperandCount.Statement, Sys2Proof.Instr.operands, Sys2Proof.Instr.opcode, Sys2Proof.Config.opcodes,
    Sys2Proof.operandCount]
theorem Sys2Proof.Laws.OperandCount.mul (a b : Sys2Proof.Byte) : Sys2Proof.Laws.OperandCount.Statement (.mul a b) := by
  simp [Sys2Proof.Laws.OperandCount.Statement, Sys2Proof.Instr.operands, Sys2Proof.Instr.opcode, Sys2Proof.Config.opcodes,
    Sys2Proof.operandCount]
theorem Sys2Proof.Laws.OperandCount.div (a b : Sys2Proof.Byte) : Sys2Proof.Laws.OperandCount.Statement (.div a b) := by
  simp [Sys2Proof.Laws.OperandCount.Statement, Sys2Proof.Instr.operands, Sys2Proof.Instr.opcode, Sys2Proof.Config.opcodes,
    Sys2Proof.operandCount]
theorem Sys2Proof.Laws.OperandCount.mod (a b : Sys2Proof.Byte) : Sys2Proof.Laws.OperandCount.Statement (.mod a b) := by
  simp [Sys2Proof.Laws.OperandCount.Statement, Sys2Proof.Instr.operands, Sys2Proof.Instr.opcode, Sys2Proof.Config.opcodes,
    Sys2Proof.operandCount]
theorem Sys2Proof.Laws.OperandCount.cmp (a b : Sys2Proof.Byte) : Sys2Proof.Laws.OperandCount.Statement (.cmp a b) := by
  simp [Sys2Proof.Laws.OperandCount.Statement, Sys2Proof.Instr.operands, Sys2Proof.Instr.opcode, Sys2Proof.Config.opcodes,
    Sys2Proof.operandCount]
theorem Sys2Proof.Laws.OperandCount.and (a b : Sys2Proof.Byte) : Sys2Proof.Laws.OperandCount.Statement (.and a b) := by
  simp [Sys2Proof.Laws.OperandCount.Statement, Sys2Proof.Instr.operands, Sys2Proof.Instr.opcode, Sys2Proof.Config.opcodes,
    Sys2Proof.operandCount]
theorem Sys2Proof.Laws.OperandCount.or (a b : Sys2Proof.Byte) : Sys2Proof.Laws.OperandCount.Statement (.or a b) := by
  simp [Sys2Proof.Laws.OperandCount.Statement, Sys2Proof.Instr.operands, Sys2Proof.Instr.opcode, Sys2Proof.Config.opcodes,
    Sys2Proof.operandCount]
theorem Sys2Proof.Laws.OperandCount.xor (a b : Sys2Proof.Byte) : Sys2Proof.Laws.OperandCount.Statement (.xor a b) := by
  simp [Sys2Proof.Laws.OperandCount.Statement, Sys2Proof.Instr.operands, Sys2Proof.Instr.opcode, Sys2Proof.Config.opcodes,
    Sys2Proof.operandCount]
theorem Sys2Proof.Laws.OperandCount.shl (a b : Sys2Proof.Byte) : Sys2Proof.Laws.OperandCount.Statement (.shl a b) := by
  simp [Sys2Proof.Laws.OperandCount.Statement, Sys2Proof.Instr.operands, Sys2Proof.Instr.opcode, Sys2Proof.Config.opcodes,
    Sys2Proof.operandCount]
theorem Sys2Proof.Laws.OperandCount.shr (a b : Sys2Proof.Byte) : Sys2Proof.Laws.OperandCount.Statement (.shr a b) := by
  simp [Sys2Proof.Laws.OperandCount.Statement, Sys2Proof.Instr.operands, Sys2Proof.Instr.opcode, Sys2Proof.Config.opcodes,
    Sys2Proof.operandCount]

theorem Sys2Proof.Laws.TableRow.nop : Sys2Proof.Laws.TableRow.Statement .nop := by
  simp [Sys2Proof.Laws.TableRow.Statement, Sys2Proof.lookupOpcode, Sys2Proof.opcodeTable, Sys2Proof.Config.opcodes,
    Sys2Proof.Instr.opcode, Sys2Proof.Instr.operands]
theorem Sys2Proof.Laws.TableRow.hlt : Sys2Proof.Laws.TableRow.Statement .hlt := by
  simp [Sys2Proof.Laws.TableRow.Statement, Sys2Proof.lookupOpcode, Sys2Proof.opcodeTable, Sys2Proof.Config.opcodes,
    Sys2Proof.Instr.opcode, Sys2Proof.Instr.operands]
theorem Sys2Proof.Laws.TableRow.ret : Sys2Proof.Laws.TableRow.Statement .ret := by
  simp [Sys2Proof.Laws.TableRow.Statement, Sys2Proof.lookupOpcode, Sys2Proof.opcodeTable, Sys2Proof.Config.opcodes,
    Sys2Proof.Instr.opcode, Sys2Proof.Instr.operands]
theorem Sys2Proof.Laws.TableRow.iret : Sys2Proof.Laws.TableRow.Statement .iret := by
  simp [Sys2Proof.Laws.TableRow.Statement, Sys2Proof.lookupOpcode, Sys2Proof.opcodeTable, Sys2Proof.Config.opcodes,
    Sys2Proof.Instr.opcode, Sys2Proof.Instr.operands]
theorem Sys2Proof.Laws.TableRow.push (a : Sys2Proof.Byte) : Sys2Proof.Laws.TableRow.Statement (.push a) := by
  simp [Sys2Proof.Laws.TableRow.Statement, Sys2Proof.lookupOpcode, Sys2Proof.opcodeTable, Sys2Proof.Config.opcodes,
    Sys2Proof.Instr.opcode, Sys2Proof.Instr.operands]
theorem Sys2Proof.Laws.TableRow.pop (a : Sys2Proof.Byte) : Sys2Proof.Laws.TableRow.Statement (.pop a) := by
  simp [Sys2Proof.Laws.TableRow.Statement, Sys2Proof.lookupOpcode, Sys2Proof.opcodeTable, Sys2Proof.Config.opcodes,
    Sys2Proof.Instr.opcode, Sys2Proof.Instr.operands]
theorem Sys2Proof.Laws.TableRow.prn (a : Sys2Proof.Byte) : Sys2Proof.Laws.TableRow.Statement (.prn a) := by
  simp [Sys2Proof.Laws.TableRow.Statement, Sys2Proof.lookupOpcode, Sys2Proof.opcodeTable, Sys2Proof.Config.opcodes,
    Sys2Proof.Instr.opcode, Sys2Proof.Instr.operands]
theorem Sys2Proof.Laws.TableRow.pra (a : Sys2Proof.Byte) : Sys2Proof.Laws.TableRow.Statement (.pra a) := by
  simp [Sys2Proof.Laws.TableRow.Statement, Sys2Proof.lookupOpcode, Sys2Proof.opcodeTable, Sys2Proof.Config.opcodes,
    Sys2Proof.Instr.opcode, Sys2Proof.Instr.operands]
theorem Sys2Proof.Laws.TableRow.call (a : Sys2Proof.Byte) : Sys2Proof.Laws.TableRow.Statement (.call a) := by
  simp [Sys2Proof.Laws.TableRow.Statement, Sys2Proof.lookupOpcode, Sys2Proof.opcodeTable, Sys2Proof.Config.opcodes,
    Sys2Proof.Instr.opcode, Sys2Proof.Instr.operands]
theorem Sys2Proof.Laws.TableRow.int (a : Sys2Proof.Byte) : Sys2Proof.Laws.TableRow.Statement (.int a) := by
  simp [Sys2Proof.Laws.TableRow.Statement, Sys2Proof.lookupOpcode, Sys2Proof.opcodeTable, Sys2Proof.Config.opcodes,
    Sys2Proof.Instr.opcode, Sys2Proof.Instr.operands]
theorem Sys2Proof.Laws.TableRow.jmp (a : Sys2Proof.Byte) : Sys2Proof.Laws.TableRow.Statement (.jmp a) := by
  simp [Sys2Proof.Laws.TableRow.Statement, Sys2Proof.lookupOpcode, Sys2Proof.opcodeTable, Sys2Proof.Config.opcodes,
    Sys2Proof.Instr.opcode, Sys2Proof.Instr.operands]
theorem Sys2Proof.Laws.TableRow.jeq (a : Sys2Proof.Byte) : Sys2Proof.Laws.TableRow.Statement (.jeq a) := by
  simp [Sys2Proof.Laws.TableRow.Statement, Sys2Proof.lookupOpcode, Sys2Proof.opcodeTable, Sys2Proof.Config.opcodes,
    Sys2Proof.Instr.opcode, Sys2Proof.Instr.operands]
theorem Sys2Proof.Laws.TableRow.jne (a : Sys2Proof.Byte) : Sys2Proof.Laws.TableRow.Statement (.jne a) := by
  simp [Sys2Proof.Laws.TableRow.Statement, Sys2Proof.lookupOpcode, Sys2Proof.opcodeTable, Sys2Proof.Config.opcodes,
    Sys2Proof.Instr.opcode, Sys2Proof.Instr.operands]
theorem Sys2Proof.Laws.TableRow.jgt (a : Sys2Proof.Byte) : Sys2Proof.Laws.TableRow.Statement (.jgt a) := by
  simp [Sys2Proof.Laws.TableRow.Statement, Sys2Proof.lookupOpcode, Sys2Proof.opcodeTable, Sys2Proof.Config.opcodes,
    Sys2Proof.Instr.opcode, Sys2Proof.Instr.operands]
theorem Sys2Proof.Laws.TableRow.jlt (a : Sys2Proof.Byte) : Sys2Proof.Laws.TableRow.Statement (.jlt a) := by
  simp [Sys2Proof.Laws.TableRow.Statement, Sys2Proof.lookupOpcode, Sys2Proof.opcodeTable, Sys2Proof.Config.opcodes,
    Sys2Proof.Instr.opcode, Sys2Proof.Instr.operands]
theorem Sys2Proof.Laws.TableRow.jle (a : Sys2Proof.Byte) : Sys2Proof.Laws.TableRow.Statement (.jle a) := by
  simp [Sys2Proof.Laws.TableRow.Statement, Sys2Proof.lookupOpcode, Sys2Proof.opcodeTable, Sys2Proof.Config.opcodes,
    Sys2Proof.Instr.opcode, Sys2Proof.Instr.operands]
theorem Sys2Proof.Laws.TableRow.jge (a : Sys2Proof.Byte) : Sys2Proof.Laws.TableRow.Statement (.jge a) := by
  simp [Sys2Proof.Laws.TableRow.Statement, Sys2Proof.lookupOpcode, Sys2Proof.opcodeTable, Sys2Proof.Config.opcodes,
    Sys2Proof.Instr.opcode, Sys2Proof.Instr.operands]
theorem Sys2Proof.Laws.TableRow.inc (a : Sys2Proof.Byte) : Sys2Proof.Laws.TableRow.Statement (.inc a) := by
  simp [Sys2Proof.Laws.TableRow.Statement, Sys2Proof.lookupOpcode, Sys2Proof.opcodeTable, Sys2Proof.Config.opcodes,
    Sys2Proof.Instr.opcode, Sys2Proof.Instr.operands]
theorem Sys2Proof.Laws.TableRow.dec (a : Sys2Proof.Byte) : Sys2Proof.Laws.TableRow.Statement (.dec a) := by
  simp [Sys2Proof.Laws.TableRow.Statement, Sys2Proof.lookupOpcode, Sys2Proof.opcodeTable, Sys2Proof.Config.opcodes,
    Sys2Proof.Instr.opcode, Sys2Proof.Instr.operands]
theorem Sys2Proof.Laws.TableRow.not (a : Sys2Proof.Byte) : Sys2Proof.Laws.TableRow.Statement (.not a) := by
  simp [Sys2Proof.Laws.TableRow.Statement, Sys2Proof.lookupOpcode, Sys2Proof.opcodeTable, Sys2Proof.Config.opcodes,
    Sys2Proof.Instr.opcode, Sys2Proof.Instr.operands]
theorem Sys2Proof.Laws.TableRow.ldi (a b : Sys2Proof.Byte) : Sys2Proof.Laws.TableRow.Statement (.ldi a b) := by
  simp [Sys2Proof.Laws.TableRow.Statement, Sys2Proof.lookupOpcode, Sys2Proof.opcodeTable, Sys2Proof.Config.opcodes,
    Sys2Proof.Instr.opcode, Sys2Proof.Instr.operands]
theorem Sys2Proof.Laws.TableRow.ld (a b : Sys2Proof.Byte) : Sys2Proof.Laws.TableRow.Statement (.ld a b) := by
  simp [Sys2Proof.Laws.TableRow.Statement, Sys2Proof.lookupOpcode, Sys2Proof.opcodeTable, Sys2Proof.Config.opcodes,
    Sys2Proof.Instr.opcode, Sys2Proof.Instr.operands]
theorem Sys2Proof.Laws.TableRow.st (a b : Sys2Proof.Byte) : Sys2Proof.Laws.TableRow.Statement (.st a b) := by
  simp [Sys2Proof.Laws.TableRow.Statement, Sys2Proof.lookupOpcode, Sys2Proof.opcodeTable, Sys2Proof.Config.opcodes,
    Sys2Proof.Instr.opcode, Sys2Proof.Instr.operands]
theorem Sys2Proof.Laws.TableRow.add (a b : Sys2Proof.Byte) : Sys2Proof.Laws.TableRow.Statement (.add a b) := by
  simp [Sys2Proof.Laws.TableRow.Statement, Sys2Proof.lookupOpcode, Sys2Proof.opcodeTable, Sys2Proof.Config.opcodes,
    Sys2Proof.Instr.opcode, Sys2Proof.Instr.operands]
theorem Sys2Proof.Laws.TableRow.sub (a b : Sys2Proof.Byte) : Sys2Proof.Laws.TableRow.Statement (.sub a b) := by
  simp [Sys2Proof.Laws.TableRow.Statement, Sys2Proof.lookupOpcode, Sys2Proof.opcodeTable, Sys2Proof.Config.opcodes,
    Sys2Proof.Instr.opcode, Sys2Proof.Instr.operands]
theorem Sys2Proof.Laws.TableRow.mul (a b : Sys2Proof.Byte) : Sys2Proof.Laws.TableRow.Statement (.mul a b) := by
  simp [Sys2Proof.Laws.TableRow.Statement, Sys2Proof.lookupOpcode, Sys2Proof.opcodeTable, Sys2Proof.Config.opcodes,
    Sys2Proof.Instr.opcode, Sys2Proof.Instr.operands]
theorem Sys2Proof.Laws.TableRow.div (a b : Sys2Proof.Byte) : Sys2Proof.Laws.TableRow.Statement (.div a b) := by
  simp [Sys2Proof.Laws.TableRow.Statement, Sys2Proof.lookupOpcode, Sys2Proof.opcodeTable, Sys2Proof.Config.opcodes,
    Sys2Proof.Instr.opcode, Sys2Proof.Instr.operands]
theorem Sys2Proof.Laws.TableRow.mod (a b : Sys2Proof.Byte) : Sys2Proof.Laws.TableRow.Statement (.mod a b) := by
  simp [Sys2Proof.Laws.TableRow.Statement, Sys2Proof.lookupOpcode, Sys2Proof.opcodeTable, Sys2Proof.Config.opcodes,
    Sys2Proof.Instr.opcode, Sys2Proof.Instr.operands]
theorem Sys2Proof.Laws.TableRow.cmp (a b : Sys2Proof.Byte) : Sys2Proof.Laws.TableRow.Statement (.cmp a b) := by
  simp [Sys2Proof.Laws.TableRow.Statement, Sys2Proof.lookupOpcode, Sys2Proof.opcodeTable, Sys2Proof.Config.opcodes,
    Sys2Proof.Instr.opcode, Sys2Proof.Instr.operands]
theorem Sys2Proof.Laws.TableRow.and (a b : Sys2Proof.Byte) : Sys2Proof.Laws.TableRow.Statement (.and a b) := by
  simp [Sys2Proof.Laws.TableRow.Statement, Sys2Proof.lookupOpcode, Sys2Proof.opcodeTable, Sys2Proof.Config.opcodes,
    Sys2Proof.Instr.opcode, Sys2Proof.Instr.operands]
theorem Sys2Proof.Laws.TableRow.or (a b : Sys2Proof.Byte) : Sys2Proof.Laws.TableRow.Statement (.or a b) := by
  simp [Sys2Proof.Laws.TableRow.Statement, Sys2Proof.lookupOpcode, Sys2Proof.opcodeTable, Sys2Proof.Config.opcodes,
    Sys2Proof.Instr.opcode, Sys2Proof.Instr.operands]
theorem Sys2Proof.Laws.TableRow.xor (a b : Sys2Proof.Byte) : Sys2Proof.Laws.TableRow.Statement (.xor a b) := by
  simp [Sys2Proof.Laws.TableRow.Statement, Sys2Proof.lookupOpcode, Sys2Proof.opcodeTable, Sys2Proof.Config.opcodes,
    Sys2Proof.Instr.opcode, Sys2Proof.Instr.operands]
theorem Sys2Proof.Laws.TableRow.shl (a b : Sys2Proof.Byte) : Sys2Proof.Laws.TableRow.Statement (.shl a b) := by
  simp [Sys2Proof.Laws.TableRow.Statement, Sys2Proof.lookupOpcode, Sys2Proof.opcodeTable, Sys2Proof.Config.opcodes,
    Sys2Proof.Instr.opcode, Sys2Proof.Instr.operands]
theorem Sys2Proof.Laws.TableRow.shr (a b : Sys2Proof.Byte) : Sys2Proof.Laws.TableRow.Statement (.shr a b) := by
  simp [Sys2Proof.Laws.TableRow.Statement, Sys2Proof.lookupOpcode, Sys2Proof.opcodeTable, Sys2Proof.Config.opcodes,
    Sys2Proof.Instr.opcode, Sys2Proof.Instr.operands]
end

