-- ==== Sys2Proof/Laws/Word.lean ====
section
/-!
SUPPORT. The bounds of the word types, and `wrap8` as arithmetic modulo 256 (00_scope.md R8).
-/
namespace Sys2Proof

/-- A value of a register, a cell or an operand byte is below 256: the bound for omega, which does not unfold `Config.xlen`. -/
theorem toNat_lt_256 (v : Byte) : v.toNat < 256 := v.isLt

/-- An address held by the program counter is below 256. -/
theorem pc_toNat_lt_256 (v : Pc) : v.toNat < 256 := v.isLt

/-- `wrap8` of a natural number is its low eight bits. -/
@[simp] theorem wrap8_natCast (n : Nat) : wrap8 (n : Int) = BitVec.ofNat 8 n := by
  simp [wrap8]

theorem wrap8_toNat_natCast (n : Nat) : (wrap8 (n : Int)).toNat = n % 256 := by simp

/-- The sum of two naturals, as `wrap8` sees it. -/
theorem wrap8_add (m n : Nat) : wrap8 ((m : Int) + n) = BitVec.ofNat 8 (m + n) := by
  rw [← Int.natCast_add, wrap8_natCast]

theorem wrap8_mul (m n : Nat) : wrap8 ((m : Int) * n) = BitVec.ofNat 8 (m * n) := by
  rw [← Int.natCast_mul, wrap8_natCast]

theorem wrap8_add_one (m : Nat) : wrap8 ((m : Int) + 1) = BitVec.ofNat 8 (m + 1) := wrap8_add m 1

/-- Adding 256 changes nothing, so a difference of bytes is a natural number's low bits. -/
theorem wrap8_sub (m n : Nat) (h : n ≤ 256) : wrap8 ((m : Int) - n) = BitVec.ofNat 8 (m + 256 - n) := by
  have e : ((m + 256 - n : Nat) : Int) = (m : Int) - n + 256 := by omega
  rw [← wrap8_natCast, e]
  apply BitVec.eq_of_toNat_eq
  simp only [wrap8, BitVec.toNat_ofInt, Config.xlen]
  omega

theorem wrap8_sub_one (m : Nat) : wrap8 ((m : Int) - 1) = BitVec.ofNat 8 (m + 255) := wrap8_sub m 1 (by omega)

/-- The complement of a byte's integer value, wrapped, is the eight-bit complement (42_alu.md R139). -/
theorem wrap8_not (u : Byte) : wrap8 (~~~(u.toNat : Int)) = BitVec.ofNat 8 (255 - u.toNat) := by
  have hu := toNat_lt_256 u
  have e : (~~~(u.toNat : Int)) = ((0 : Nat) : Int) - ((u.toNat + 1 : Nat) : Int) := by
    show Int.negSucc u.toNat = _
    omega
  rw [e, wrap8_sub 0 (u.toNat + 1) (by omega)]
  congr 1
  omega

end Sys2Proof
end

