-- ==== Sys2Proof/Laws/Decode.lean ====
section
/-!
SUPPORT. What the decoder answers, case by case, and how many bytes a fetch reads.
-/
namespace Sys2Proof

theorem operandCount_eq (op : Byte) : operandCount op = op.toNat / 64 := by
  simp [operandCount, Nat.shiftRight_eq_div_pow]

theorem operandCount_le (op : Byte) : operandCount op ≤ 3 := by
  have := toNat_lt_256 op
  rw [operandCount_eq]; omega

theorem decode_short {op : Byte} {after : List Byte} (h : after.length < operandCount op) :
    decode op after = .truncated op := if_pos h

theorem decode_unknown {op : Byte} {after : List Byte} (h : operandCount op ≤ after.length)
    (hl : lookupOpcode op = none) : decode op after = .unrecognised op (after.drop (operandCount op)) := by
  rw [decode, if_neg (by omega), hl]

theorem decode_row {op : Byte} {after : List Byte} {row : OpcodeRow} (h : operandCount op ≤ after.length)
    (hl : lookupOpcode op = some row) :
    decode op after = .instr (row.build (after.getD 0 0) (after.getD 1 0)) (after.drop (operandCount op)) := by
  rw [decode, if_neg (by omega), hl]

/-- Everything the decoder can answer. -/
theorem decode_cases (op : Byte) (after : List Byte) :
    (after.length < operandCount op ∧ decode op after = .truncated op) ∨
    (operandCount op ≤ after.length ∧ lookupOpcode op = none ∧
      decode op after = .unrecognised op (after.drop (operandCount op))) ∨
    (∃ row, operandCount op ≤ after.length ∧ lookupOpcode op = some row ∧
      decode op after = .instr (row.build (after.getD 0 0) (after.getD 1 0)) (after.drop (operandCount op))) := by
  rcases Nat.lt_or_ge after.length (operandCount op) with h | h
  · exact .inl ⟨h, decode_short h⟩
  · cases hl : lookupOpcode op with
    | none => exact .inr (.inl ⟨h, rfl, decode_unknown h hl⟩)
    | some row => exact .inr (.inr ⟨row, h, rfl, decode_row h hl⟩)

/-- A row found for a byte has that byte as its opcode and stands in the table. -/
theorem lookupOpcode_sound {op : Byte} {row : OpcodeRow} (h : lookupOpcode op = some row) :
    row ∈ opcodeTable ∧ row.opcode = op :=
  ⟨List.mem_of_find?_eq_some h, by simpa using List.find?_some h⟩

namespace Machine

theorem Memory.bytesFrom_length (m : Memory) (addr count : Nat) :
    (m.bytesFrom addr count).length = min count (Config.memSize - addr) := by
  induction count generalizing addr with
  | zero => simp [Memory.bytesFrom]
  | succ n ih =>
    simp only [Memory.bytesFrom]
    split
    · simp only [List.length_cons, ih]; omega
    · simp only [List.length_nil]; omega

/-- The bytes a fetch reads are the cells at rising addresses. -/
theorem Memory.bytesFrom_getD (m : Memory) (addr count k : Nat) (hk : k < count) (ha : addr + k < Config.memSize) :
    (m.bytesFrom addr count).getD k 0 = m.read (addr + k) := by
  induction count generalizing addr k with
  | zero => omega
  | succ n ih =>
    have h0 : addr < Config.memSize := by omega
    simp only [Memory.bytesFrom, h0, if_true]
    cases k with
    | zero => rfl
    | succ k =>
      rw [List.getD_cons_succ, ih (addr + 1) k (by omega) (by omega)]
      congr 1; omega

/-- The fetch is truncated exactly when a declared operand byte lies above address 255. -/
theorem State.operandBytes_length (s : State) :
    s.operandBytes.length < operandCount s.opcodeByte ↔ 255 < s.pc.toNat + operandCount s.opcodeByte := by
  have := pc_toNat_lt_256 s.pc
  simp only [State.operandBytes, Memory.bytesFrom_length, Config.memSize]
  omega

theorem fetch_truncated (s : State) (h : 255 < s.pc.toNat + operandCount s.opcodeByte) :
    fetch s = .truncated s.opcodeByte := decode_short ((State.operandBytes_length s).2 h)

end Machine
end Sys2Proof
end

