-- ==== Sys2Proof/Laws/Memory.lean ====
section
/-!
SUPPORT. The laws of memory (20_memory.md R51): read after write, the canonical form is kept by every operation, and two
canonical memories that read alike are equal.
-/
namespace Sys2Proof.Machine

/-! ### Read after write -/

theorem Memory.read_cons (m : Memory) (k : Nat) (v : Byte) (addr : Nat) (h : addr = k → m.read addr = Memory.unlisted) :
    (Memory.cons k v m).read addr = if k = addr then v else m.read addr := by
  unfold Memory.cons
  split
  · next hv =>
    split
    · next hk => rw [h hk.symm, hv]
    · rfl
  · rfl

/-- Reading below every entry of a rising list. -/
theorem Memory.read_below {m : Memory} {low addr : Nat} (h : m.wfFrom low = true) (ha : addr < low) :
    m.read addr = Memory.unlisted := by
  induction m generalizing low with
  | nil => rfl
  | cons c m ih =>
    obtain ⟨k, v⟩ := c
    simp only [Memory.wfFrom, Bool.and_eq_true, decide_eq_true_eq] at h
    have hk : k ≠ addr := by omega
    simp only [Memory.read, hk, if_false]
    exact ih h.2 (by omega)

/-- Reading above the address space. -/
theorem Memory.read_above {m : Memory} {low addr : Nat} (h : m.wfFrom low = true) (ha : Config.memSize ≤ addr) :
    m.read addr = Memory.unlisted := by
  induction m generalizing low with
  | nil => rfl
  | cons c m ih =>
    obtain ⟨k, v⟩ := c
    simp only [Memory.wfFrom, Bool.and_eq_true, decide_eq_true_eq] at h
    have hk : k ≠ addr := by omega
    simp only [Memory.read, hk, if_false]
    exact ih h.2

theorem Memory.wfFrom_mono {m : Memory} {low low' : Nat} (h : m.wfFrom low = true) (hl : low' ≤ low) :
    m.wfFrom low' = true := by
  cases m with
  | nil => rfl
  | cons c m =>
    obtain ⟨k, v⟩ := c
    simp only [Memory.wfFrom, Bool.and_eq_true, decide_eq_true_eq] at h ⊢
    exact ⟨⟨⟨by omega, h.1.1.2⟩, h.1.2⟩, h.2⟩

/-- Read after write in a canonical memory: the cell written, and no other, has the new value. -/
theorem Memory.read_write {m : Memory} {low : Nat} (h : m.wfFrom low = true) (k : Nat) (v : Byte) (addr : Nat) :
    (m.write k v).read addr = if k = addr then v else m.read addr := by
  induction m generalizing low with
  | nil => exact Memory.read_cons [] k v addr fun _ => rfl
  | cons c m ih =>
    obtain ⟨j, w⟩ := c
    simp only [Memory.wfFrom, Bool.and_eq_true, decide_eq_true_eq] at h
    simp only [Memory.write]
    split
    · next hlt =>
      apply Memory.read_cons
      intro e
      have hj : j ≠ addr := by omega
      simp only [Memory.read, hj, if_false]
      exact Memory.read_below h.2 (by omega)
    · split
      · next hj =>
        subst hj
        rw [Memory.read_cons]
        · by_cases e : j = addr <;> simp [Memory.read, e]
        · intro e
          exact Memory.read_below h.2 (by omega)
      · next hj =>
        by_cases e : j = addr
        · have : k ≠ addr := by omega
          simp [Memory.read, e, this]
        · simp only [Memory.read, e, if_false]
          exact ih h.2

theorem Memory.read_write_same {m : Memory} (h : m.wf = true) (k : Nat) (v : Byte) : (m.write k v).read k = v := by
  rw [Memory.read_write h, if_pos rfl]

/-- A write leaves every other cell alone, in any memory. -/
theorem Memory.read_write_other (m : Memory) {k addr : Nat} (v : Byte) (hne : k ≠ addr) :
    (m.write k v).read addr = m.read addr := by
  induction m with
  | nil => simp only [Memory.write, Memory.cons]; split <;> simp [Memory.read, hne]
  | cons c m ih =>
    obtain ⟨j, w⟩ := c
    simp only [Memory.write, Memory.cons]
    split
    · split <;> simp [Memory.read, hne]
    · split
      · next hj => subst hj; split <;> simp [Memory.read, hne]
      · by_cases e : j = addr <;> simp [Memory.read, e, ih]

/-! ### The canonical form -/

theorem Memory.cons_wfFrom {m : Memory} {low k : Nat} (v : Byte) (h : m.wfFrom (k + 1) = true) (hl : low ≤ k)
    (hk : k < Config.memSize) : (Memory.cons k v m).wfFrom low = true := by
  unfold Memory.cons
  split
  · exact Memory.wfFrom_mono h (by omega)
  · next hv => simp [Memory.wfFrom, hl, hk, hv, h]

theorem Memory.write_wfFrom {m : Memory} {low k : Nat} (v : Byte) (h : m.wfFrom low = true) (hl : low ≤ k)
    (hk : k < Config.memSize) : (m.write k v).wfFrom low = true := by
  induction m generalizing low with
  | nil => exact Memory.cons_wfFrom v rfl hl hk
  | cons c m ih =>
    obtain ⟨j, w⟩ := c
    have hc := h
    simp only [Memory.wfFrom, Bool.and_eq_true, decide_eq_true_eq] at h
    simp only [Memory.write]
    split
    · next hlt =>
      apply Memory.cons_wfFrom v _ hl hk
      simp [Memory.wfFrom, h.1.1.2, h.1.2, h.2, Nat.succ_le_of_lt hlt]
    · split
      · next hj => subst hj; exact Memory.cons_wfFrom v h.2 hl hk
      · next hj hne =>
        simp only [Memory.wfFrom, Bool.and_eq_true, decide_eq_true_eq]
        exact ⟨h.1, ih h.2 (by omega)⟩

/-- Writing a cell keeps the canonical form. -/
theorem Memory.write_wf {m : Memory} (addr v : Byte) (h : m.wf = true) : (m.write addr.toNat v).wf = true :=
  Memory.write_wfFrom v h (Nat.zero_le _) addr.isLt

/-- Placing bytes keeps the canonical form. -/
theorem Memory.place_wf {m : Memory} (bytes : List Byte) (addr : Nat) (h : m.wf = true) :
    (m.place addr bytes).wf = true := by
  induction bytes generalizing m addr with
  | nil => exact h
  | cons v vs ih =>
    simp only [Memory.place]
    split
    · next ha => exact ih _ (Memory.write_wfFrom v h (Nat.zero_le _) ha)
    · exact h

theorem reset_mem_wf : State.reset.mem.wf = true := rfl

/-- Loading an image keeps the canonical form. -/
theorem State.loadImage_wf {s t : State} {words : List Nat} (h : s.mem.wf = true) (hl : s.loadImage words = some t) :
    t.mem.wf = true := by
  simp only [State.loadImage] at hl
  split at hl
  · cases hl; exact Memory.place_wf _ _ h
  · cases hl

/-- Two canonical memories that read alike at every address are the same list. -/
theorem Memory.ext_of_wfFrom {m n : Memory} {low : Nat} (hm : m.wfFrom low = true) (hn : n.wfFrom low = true)
    (h : ∀ addr, m.read addr = n.read addr) : m = n := by
  induction m generalizing n low with
  | nil =>
    cases n with
    | nil => rfl
    | cons c n =>
      obtain ⟨k, v⟩ := c
      have e := h k
      simp only [Memory.wfFrom, Bool.and_eq_true, decide_eq_true_eq] at hn
      simp only [Memory.read, if_true] at e
      exact absurd e.symm hn.1.2
  | cons c m ih =>
    obtain ⟨j, w⟩ := c
    simp only [Memory.wfFrom, Bool.and_eq_true, decide_eq_true_eq] at hm
    cases n with
    | nil =>
      have e := h j
      simp only [Memory.read, if_true] at e
      exact absurd e hm.1.2
    | cons d n =>
      obtain ⟨k, v⟩ := d
      simp only [Memory.wfFrom, Bool.and_eq_true, decide_eq_true_eq] at hn
      have hjk : j = k := by
        rcases Nat.lt_trichotomy j k with hlt | he | hlt
        · have e := h j
          have hne : k ≠ j := by omega
          simp only [Memory.read, if_true, hne, if_false, Memory.read_below hn.2 (show j < k + 1 by omega)] at e
          exact absurd e hm.1.2
        · exact he
        · have e := h k
          have hne : j ≠ k := by omega
          simp only [Memory.read, if_true, hne, if_false, Memory.read_below hm.2 (show k < j + 1 by omega)] at e
          exact absurd e.symm hn.1.2
      subst hjk
      have hw : w = v := by simpa [Memory.read] using h j
      subst hw
      have : m = n := by
        apply ih hm.2 hn.2
        intro addr
        by_cases e : j = addr
        · subst e
          rw [Memory.read_below hm.2 (Nat.lt_succ_self _), Memory.read_below hn.2 (Nat.lt_succ_self _)]
        · simpa [Memory.read, e] using h addr
      rw [this]

/-- What placing bytes at an address does to every cell, while they fit the address space. -/
theorem Memory.read_place {m : Memory} (h : m.wf = true) (bytes : List Byte) (base addr : Nat)
    (hfit : base + bytes.length ≤ Config.memSize) :
    (m.place base bytes).read addr =
      if base ≤ addr ∧ addr < base + bytes.length then bytes.getD (addr - base) 0 else m.read addr := by
  induction bytes generalizing m base with
  | nil =>
    have : ¬(base ≤ addr ∧ addr < base + ([] : List Byte).length) := by simp
    rw [if_neg this]; rfl
  | cons v vs ih =>
    simp only [List.length_cons] at hfit ⊢
    have hb : base < Config.memSize := by omega
    simp only [Memory.place, hb, if_true]
    rw [ih (Memory.write_wfFrom v h (Nat.zero_le _) hb) (base + 1) (by omega), Memory.read_write h]
    by_cases e : base = addr
    · subst e; simp
    · by_cases g : base + 1 ≤ addr ∧ addr < base + 1 + vs.length
      · have g' : base ≤ addr ∧ addr < base + (vs.length + 1) := by omega
        have hs : addr - base = (addr - (base + 1)) + 1 := by omega
        rw [if_pos g, if_pos g', hs]; simp
      · have g' : ¬(base ≤ addr ∧ addr < base + (vs.length + 1)) := by omega
        rw [if_neg g, if_neg g', if_neg e]

end Sys2Proof.Machine
end

