-- ==== Sys2Proof/Laws/State.lean ====
section
/-!
SUPPORT. One lemma per field and update: what the field reads after the update, true by rfl. Later proofs rewrite with these
and never unfold a record update.
-/
namespace Sys2Proof.Machine

variable (s : State)

/-! ### `State.memWrite` -/

@[simp] theorem State.memWrite_regs (addr : Addr) (v : Byte) : (s.memWrite addr v).regs = s.regs := rfl
@[simp] theorem State.memWrite_pc (addr : Addr) (v : Byte) : (s.memWrite addr v).pc = s.pc := rfl
@[simp] theorem State.memWrite_fl (addr : Addr) (v : Byte) : (s.memWrite addr v).fl = s.fl := rfl
@[simp] theorem State.memWrite_halted (addr : Addr) (v : Byte) : (s.memWrite addr v).halted = s.halted := rfl
@[simp] theorem State.memWrite_faulted (addr : Addr) (v : Byte) : (s.memWrite addr v).faulted = s.faulted := rfl
@[simp] theorem State.memWrite_mem (addr : Addr) (v : Byte) : (s.memWrite addr v).mem = s.mem.write addr.toNat v := rfl
@[simp] theorem State.memWrite_events (addr : Addr) (v : Byte) : (s.memWrite addr v).events = s.events := rfl

/-! ### `State.setReg` -/

@[simp] theorem State.setReg_regs (r : Reg) (v : Byte) : (s.setReg r v).regs = s.regs.set r.val v r.isLt := rfl
@[simp] theorem State.setReg_pc (r : Reg) (v : Byte) : (s.setReg r v).pc = s.pc := rfl
@[simp] theorem State.setReg_fl (r : Reg) (v : Byte) : (s.setReg r v).fl = s.fl := rfl
@[simp] theorem State.setReg_halted (r : Reg) (v : Byte) : (s.setReg r v).halted = s.halted := rfl
@[simp] theorem State.setReg_faulted (r : Reg) (v : Byte) : (s.setReg r v).faulted = s.faulted := rfl
@[simp] theorem State.setReg_mem (r : Reg) (v : Byte) : (s.setReg r v).mem = s.mem := rfl
@[simp] theorem State.setReg_events (r : Reg) (v : Byte) : (s.setReg r v).events = s.events := rfl

/-! ### `State.setSp` -/

@[simp] theorem State.setSp_regs (v : Byte) : (s.setSp v).regs = s.regs.set Config.spIndex.val v Config.spIndex.isLt := rfl
@[simp] theorem State.setSp_pc (v : Byte) : (s.setSp v).pc = s.pc := rfl
@[simp] theorem State.setSp_fl (v : Byte) : (s.setSp v).fl = s.fl := rfl
@[simp] theorem State.setSp_halted (v : Byte) : (s.setSp v).halted = s.halted := rfl
@[simp] theorem State.setSp_faulted (v : Byte) : (s.setSp v).faulted = s.faulted := rfl
@[simp] theorem State.setSp_mem (v : Byte) : (s.setSp v).mem = s.mem := rfl
@[simp] theorem State.setSp_events (v : Byte) : (s.setSp v).events = s.events := rfl

/-! ### `State.emit` -/

@[simp] theorem State.emit_regs (k : OutKind) (v : Byte) : (s.emit k v).regs = s.regs := rfl
@[simp] theorem State.emit_pc (k : OutKind) (v : Byte) : (s.emit k v).pc = s.pc := rfl
@[simp] theorem State.emit_fl (k : OutKind) (v : Byte) : (s.emit k v).fl = s.fl := rfl
@[simp] theorem State.emit_halted (k : OutKind) (v : Byte) : (s.emit k v).halted = s.halted := rfl
@[simp] theorem State.emit_faulted (k : OutKind) (v : Byte) : (s.emit k v).faulted = s.faulted := rfl
@[simp] theorem State.emit_mem (k : OutKind) (v : Byte) : (s.emit k v).mem = s.mem := rfl
@[simp] theorem State.emit_events (k : OutKind) (v : Byte) : (s.emit k v).events = s.events ++ [.out k v] := rfl

/-! ### `State.report` -/

@[simp] theorem State.report_regs (r : Report) : (s.report r).regs = s.regs := rfl
@[simp] theorem State.report_pc (r : Report) : (s.report r).pc = s.pc := rfl
@[simp] theorem State.report_fl (r : Report) : (s.report r).fl = s.fl := rfl
@[simp] theorem State.report_halted (r : Report) : (s.report r).halted = s.halted := rfl
@[simp] theorem State.report_faulted (r : Report) : (s.report r).faulted = s.faulted := rfl
@[simp] theorem State.report_mem (r : Report) : (s.report r).mem = s.mem := rfl
@[simp] theorem State.report_events (r : Report) : (s.report r).events = s.events ++ [.rpt r] := rfl

/-! ### `State.raiseAt` -/

@[simp] theorem State.raiseAt_regs (c : Condition) (addr : Pc) (info : Byte) : (s.raiseAt c addr info).regs = s.regs := rfl
@[simp] theorem State.raiseAt_pc (c : Condition) (addr : Pc) (info : Byte) : (s.raiseAt c addr info).pc = s.pc := rfl
@[simp] theorem State.raiseAt_fl (c : Condition) (addr : Pc) (info : Byte) : (s.raiseAt c addr info).fl = s.fl := rfl
@[simp] theorem State.raiseAt_halted (c : Condition) (addr : Pc) (info : Byte) : (s.raiseAt c addr info).halted = s.halted := rfl
@[simp] theorem State.raiseAt_faulted (c : Condition) (addr : Pc) (info : Byte) : (s.raiseAt c addr info).faulted = some ⟨c, addr, info⟩ := rfl
@[simp] theorem State.raiseAt_mem (c : Condition) (addr : Pc) (info : Byte) : (s.raiseAt c addr info).mem = s.mem := rfl
@[simp] theorem State.raiseAt_events (c : Condition) (addr : Pc) (info : Byte) : (s.raiseAt c addr info).events = s.events ++ [.rpt ⟨c, addr, info⟩] := rfl

/-! ### `State.addrRangeOut` -/

@[simp] theorem State.addrRangeOut_regs (addr : Pc) (op : Byte) : (s.addrRangeOut addr op).regs = s.regs := rfl
@[simp] theorem State.addrRangeOut_pc (addr : Pc) (op : Byte) : (s.addrRangeOut addr op).pc = s.pc := rfl
@[simp] theorem State.addrRangeOut_fl (addr : Pc) (op : Byte) : (s.addrRangeOut addr op).fl = s.fl := rfl
@[simp] theorem State.addrRangeOut_halted (addr : Pc) (op : Byte) : (s.addrRangeOut addr op).halted = s.halted := rfl
@[simp] theorem State.addrRangeOut_faulted (addr : Pc) (op : Byte) : (s.addrRangeOut addr op).faulted = some ⟨.addrRange, addr, op⟩ := rfl
@[simp] theorem State.addrRangeOut_mem (addr : Pc) (op : Byte) : (s.addrRangeOut addr op).mem = s.mem := rfl
@[simp] theorem State.addrRangeOut_events (addr : Pc) (op : Byte) : (s.addrRangeOut addr op).events = s.events ++ [.rpt ⟨.addrRange, addr, op⟩] := rfl

/-! ### `State.regIndexOut` -/

@[simp] theorem State.regIndexOut_regs (v : Byte) : (s.regIndexOut v).regs = s.regs := rfl
@[simp] theorem State.regIndexOut_pc (v : Byte) : (s.regIndexOut v).pc = s.pc := rfl
@[simp] theorem State.regIndexOut_fl (v : Byte) : (s.regIndexOut v).fl = s.fl := rfl
@[simp] theorem State.regIndexOut_halted (v : Byte) : (s.regIndexOut v).halted = s.halted := rfl
@[simp] theorem State.regIndexOut_faulted (v : Byte) : (s.regIndexOut v).faulted = some ⟨.regIndex, s.pc, v⟩ := rfl
@[simp] theorem State.regIndexOut_mem (v : Byte) : (s.regIndexOut v).mem = s.mem := rfl
@[simp] theorem State.regIndexOut_events (v : Byte) : (s.regIndexOut v).events = s.events ++ [.rpt ⟨.regIndex, s.pc, v⟩] := rfl

/-! ### `State.placeholder` -/

@[simp] theorem State.placeholder_regs (op : Byte) : (s.placeholder op).regs = s.regs := rfl
@[simp] theorem State.placeholder_pc (op : Byte) : (s.placeholder op).pc = s.pc := rfl
@[simp] theorem State.placeholder_fl (op : Byte) : (s.placeholder op).fl = s.fl := rfl
@[simp] theorem State.placeholder_halted (op : Byte) : (s.placeholder op).halted = s.halted := rfl
@[simp] theorem State.placeholder_faulted (op : Byte) : (s.placeholder op).faulted = some ⟨.placeholder, s.pc, op⟩ := rfl
@[simp] theorem State.placeholder_mem (op : Byte) : (s.placeholder op).mem = s.mem := rfl
@[simp] theorem State.placeholder_events (op : Byte) : (s.placeholder op).events = s.events ++ [.rpt ⟨.placeholder, s.pc, op⟩] := rfl

/-! ### `State.setPc` -/

@[simp] theorem State.setPc_regs (t : Pc) : (s.setPc t).regs = s.regs := rfl
@[simp] theorem State.setPc_pc (t : Pc) : (s.setPc t).pc = t := rfl
@[simp] theorem State.setPc_fl (t : Pc) : (s.setPc t).fl = s.fl := rfl
@[simp] theorem State.setPc_halted (t : Pc) : (s.setPc t).halted = s.halted := rfl
@[simp] theorem State.setPc_faulted (t : Pc) : (s.setPc t).faulted = s.faulted := rfl
@[simp] theorem State.setPc_mem (t : Pc) : (s.setPc t).mem = s.mem := rfl
@[simp] theorem State.setPc_events (t : Pc) : (s.setPc t).events = s.events := rfl

/-! ### `State.setFl` -/

@[simp] theorem State.setFl_regs (v : FlWord) : (s.setFl v).regs = s.regs := rfl
@[simp] theorem State.setFl_pc (v : FlWord) : (s.setFl v).pc = s.pc := rfl
@[simp] theorem State.setFl_fl (v : FlWord) : (s.setFl v).fl = v := rfl
@[simp] theorem State.setFl_halted (v : FlWord) : (s.setFl v).halted = s.halted := rfl
@[simp] theorem State.setFl_faulted (v : FlWord) : (s.setFl v).faulted = s.faulted := rfl
@[simp] theorem State.setFl_mem (v : FlWord) : (s.setFl v).mem = s.mem := rfl
@[simp] theorem State.setFl_events (v : FlWord) : (s.setFl v).events = s.events := rfl

/-! ### Reading a register or a cell after an update -/

@[simp] theorem State.reg_setReg_same (r : Reg) (v : Byte) : (s.setReg r v).reg r = v := by
  simp [State.reg, State.setReg]

theorem State.reg_setReg_other {r q : Reg} (v : Byte) (h : q ≠ r) : (s.setReg r v).reg q = s.reg q := by
  have : r.val ≠ q.val := fun e => h (Fin.ext e.symm)
  simp [State.reg, State.setReg, this]

theorem State.reg_setReg (r q : Reg) (v : Byte) : (s.setReg r v).reg q = if q = r then v else s.reg q := by
  split
  · next h => rw [h, State.reg_setReg_same]
  · next h => exact State.reg_setReg_other s v h

@[simp] theorem State.sp_setSp (v : Byte) : (s.setSp v).sp = v := State.reg_setReg_same s Config.spIndex v

@[simp] theorem State.reg_memWrite (q : Reg) (addr : Addr) (v : Byte) : (s.memWrite addr v).reg q = s.reg q := rfl
@[simp] theorem State.memRead_setReg (c : Addr) (r : Reg) (v : Byte) : (s.setReg r v).memRead c = s.memRead c := rfl
@[simp] theorem State.memRead_setSp (c : Addr) (v : Byte) : (s.setSp v).memRead c = s.memRead c := rfl
@[simp] theorem State.reg_emit (q : Reg) (k : OutKind) (v : Byte) : (s.emit k v).reg q = s.reg q := rfl
@[simp] theorem State.memRead_emit (c : Addr) (k : OutKind) (v : Byte) : (s.emit k v).memRead c = s.memRead c := rfl
@[simp] theorem State.reg_report (q : Reg) (r : Report) : (s.report r).reg q = s.reg q := rfl
@[simp] theorem State.memRead_report (c : Addr) (r : Report) : (s.report r).memRead c = s.memRead c := rfl
@[simp] theorem State.reg_raiseAt (q : Reg) (c : Condition) (addr : Pc) (info : Byte) : (s.raiseAt c addr info).reg q = s.reg q := rfl
@[simp] theorem State.memRead_raiseAt (q : Addr) (c : Condition) (addr : Pc) (info : Byte) : (s.raiseAt c addr info).memRead q = s.memRead q := rfl
@[simp] theorem State.reg_addrRangeOut (q : Reg) (addr : Pc) (op : Byte) : (s.addrRangeOut addr op).reg q = s.reg q := rfl
@[simp] theorem State.memRead_addrRangeOut (c : Addr) (addr : Pc) (op : Byte) : (s.addrRangeOut addr op).memRead c = s.memRead c := rfl
@[simp] theorem State.reg_regIndexOut (q : Reg) (v : Byte) : (s.regIndexOut v).reg q = s.reg q := rfl
@[simp] theorem State.memRead_regIndexOut (c : Addr) (v : Byte) : (s.regIndexOut v).memRead c = s.memRead c := rfl
@[simp] theorem State.reg_placeholder (q : Reg) (op : Byte) : (s.placeholder op).reg q = s.reg q := rfl
@[simp] theorem State.memRead_placeholder (c : Addr) (op : Byte) : (s.placeholder op).memRead c = s.memRead c := rfl
@[simp] theorem State.reg_setPc (q : Reg) (t : Pc) : (s.setPc t).reg q = s.reg q := rfl
@[simp] theorem State.memRead_setPc (c : Addr) (t : Pc) : (s.setPc t).memRead c = s.memRead c := rfl
@[simp] theorem State.reg_setFl (q : Reg) (v : FlWord) : (s.setFl v).reg q = s.reg q := rfl
@[simp] theorem State.memRead_setFl (c : Addr) (v : FlWord) : (s.setFl v).memRead c = s.memRead c := rfl

/-! ### The state after reset (10_state.md R39) -/

@[simp] theorem State.reset_mem : State.reset.mem = [] := rfl
@[simp] theorem State.reset_pc : State.reset.pc = Config.pcReset := rfl
@[simp] theorem State.reset_halted : State.reset.halted = false := rfl
@[simp] theorem State.reset_faulted : State.reset.faulted = none := rfl

end Sys2Proof.Machine
end

