-- ==== Sys2Proof/Laws/Ops.lean ====
section
/-!
SUPPORT. What each shared operation can do, said once: the operand checks, the sequential advance, the stack addresses and the
flags of a comparison.
-/
namespace Sys2Proof.Machine

/-! ### Register-index operands (30_encoding.md R86) -/

theorem ridx_legal {v : Byte} (h : v.toNat < 8) : ridx v = some ⟨v.toNat, h⟩ := dif_pos h

theorem ridx_illegal {v : Byte} (h : 7 < v.toNat) : ridx v = none := dif_neg (by simp only [Config.nReg]; omega)

theorem ridx_eq_some {v : Byte} {r : Reg} (h : ridx v = some r) : v.toNat < 8 ∧ r.val = v.toNat := by
  unfold ridx at h
  split at h
  · next hv => cases h; exact ⟨hv, rfl⟩
  · cases h

theorem ridx_eq_none {v : Byte} (h : ridx v = none) : 7 < v.toNat := by
  by_contra hv
  rw [ridx_legal (by omega)] at h
  cases h

theorem withReg_legal {a : Byte} (h : a.toNat < 8) (s : State) (k : Reg → Result) : withReg a s k = k ⟨a.toNat, h⟩ := by
  rw [withReg, ridx_legal h]

theorem withReg_illegal {a : Byte} (h : 7 < a.toNat) (s : State) (k : Reg → Result) :
    withReg a s k = .next (s.regIndexOut a) := by
  rw [withReg, ridx_illegal h]

/-- A checked operand either names a register and the instruction goes on, or RegIndexFault is all that happens. -/
theorem withReg_cases (a : Byte) (s : State) (k : Reg → Result) :
    (∃ r, ridx a = some r ∧ withReg a s k = k r) ∨ (ridx a = none ∧ withReg a s k = .next (s.regIndexOut a)) := by
  unfold withReg
  cases ridx a with
  | some r => exact .inl ⟨r, rfl, rfl⟩
  | none => exact .inr ⟨rfl, rfl⟩

theorem withReg_some {a : Byte} {r : Reg} (h : ridx a = some r) (s : State) (k : Reg → Result) : withReg a s k = k r := by
  unfold withReg
  rw [h]

theorem withRegs_some {a b : Byte} {p q : Reg} (hp : ridx a = some p) (hq : ridx b = some q) (s : State)
    (k : Reg → Reg → Result) : withRegs a b s k = k p q := by
  rw [withRegs, withReg_some hp, withReg_some hq]

/-- Two checked operands: both legal, or the first illegal one is reported. -/
theorem withRegs_cases (a b : Byte) (s : State) (k : Reg → Reg → Result) :
    (∃ p q, ridx a = some p ∧ ridx b = some q ∧ withRegs a b s k = k p q) ∨
    (∃ v, (v = a ∨ v = b) ∧ ridx v = none ∧ withRegs a b s k = .next (s.regIndexOut v)) := by
  unfold withRegs
  rcases withReg_cases a s fun p => withReg b s fun q => k p q with ⟨p, hp, e⟩ | ⟨hn, e⟩
  · rcases withReg_cases b s fun q => k p q with ⟨q, hq, e'⟩ | ⟨hn, e'⟩
    · exact .inl ⟨p, q, hp, hq, e.trans e'⟩
    · exact .inr ⟨b, .inr rfl, hn, e.trans e'⟩
  · exact .inr ⟨a, .inl rfl, hn, e⟩

theorem withRegs_legal {a b : Byte} (ha : a.toNat < 8) (hb : b.toNat < 8) (s : State) (k : Reg → Reg → Result) :
    withRegs a b s k = k ⟨a.toNat, ha⟩ ⟨b.toNat, hb⟩ := by
  rw [withRegs, withReg_legal ha, withReg_legal hb]

/-! ### The sequential advance (10_state.md R27, R28) -/

variable (s : State) (op : Byte)

/-- Inside the address space, or halted, the advance only moves `pc`. -/
theorem State.advance_quiet (h : s.pc.toNat + opLength op < 256 ∨ s.halted = true) :
    s.advance op = s.setPc (BitVec.ofNat 8 (s.pc.toNat + opLength op)) := by
  rw [← wrap8_natCast]
  apply if_neg
  rintro ⟨h1, h2⟩
  rcases h with h | h
  · exact absurd h1 (by simp only [Config.memSize]; omega)
  · rw [h] at h2; cases h2

/-- Past the top of the address space, not halted, it then raises AddrRangeFault. -/
theorem State.advance_past (h : 255 < s.pc.toNat + opLength op) (hh : s.halted = false) :
    s.advance op = (s.setPc (BitVec.ofNat 8 (s.pc.toNat + opLength op))).raiseAt .addrRange s.pc op := by
  rw [← wrap8_natCast]
  exact if_pos ⟨by simp only [Config.memSize]; omega, hh⟩

/-- Everything the advance can do. -/
theorem State.advance_cases :
    s.advance op = s.setPc (BitVec.ofNat 8 (s.pc.toNat + opLength op)) ∨
    (255 < s.pc.toNat + opLength op ∧ s.halted = false ∧
      s.advance op = (s.setPc (BitVec.ofNat 8 (s.pc.toNat + opLength op))).raiseAt .addrRange s.pc op) := by
  by_cases h : s.pc.toNat + opLength op < 256 ∨ s.halted = true
  · exact .inl (State.advance_quiet s op h)
  · have h1 : 255 < s.pc.toNat + opLength op := by omega
    have h2 : s.halted = false := by simpa using fun e => h (.inr e)
    exact .inr ⟨h1, h2, State.advance_past s op h1 h2⟩

@[simp] theorem State.advance_pc : (s.advance op).pc = BitVec.ofNat 8 (s.pc.toNat + opLength op) := by
  rcases State.advance_cases s op with e | ⟨-, -, e⟩ <;> rw [e] <;> rfl
@[simp] theorem State.advance_regs : (s.advance op).regs = s.regs := by
  rcases State.advance_cases s op with e | ⟨-, -, e⟩ <;> rw [e] <;> rfl
@[simp] theorem State.advance_fl : (s.advance op).fl = s.fl := by
  rcases State.advance_cases s op with e | ⟨-, -, e⟩ <;> rw [e] <;> rfl
@[simp] theorem State.advance_halted : (s.advance op).halted = s.halted := by
  rcases State.advance_cases s op with e | ⟨-, -, e⟩ <;> rw [e] <;> rfl
@[simp] theorem State.advance_mem : (s.advance op).mem = s.mem := by
  rcases State.advance_cases s op with e | ⟨-, -, e⟩ <;> rw [e] <;> rfl
@[simp] theorem State.reg_advance (q : Reg) : (s.advance op).reg q = s.reg q := by
  rcases State.advance_cases s op with e | ⟨-, -, e⟩ <;> rw [e] <;> rfl
@[simp] theorem State.memRead_advance (c : Byte) : (s.advance op).memRead c = s.memRead c := by
  simp only [State.memRead, State.advance_mem]

/-! ### Memory through the state (20_memory.md R51) -/

theorem State.memRead_memWrite_other {addr c : Byte} (v : Byte) (h : c ≠ addr) :
    (s.memWrite addr v).memRead c = s.memRead c :=
  Memory.read_write_other s.mem v fun e => h (BitVec.eq_of_toNat_eq e.symm)

theorem State.memRead_memWrite_same (h : s.mem.wf = true) (addr v : Byte) : (s.memWrite addr v).memRead addr = v :=
  Memory.read_write_same h addr.toNat v

/-! ### The stack (20_memory.md R59) -/

theorem State.pushAddr_eq : s.pushAddr = BitVec.ofNat 8 (s.sp.toNat + 255) := wrap8_sub_one s.sp.toNat
theorem State.popSp_eq : s.popSp = BitVec.ofNat 8 (s.sp.toNat + 1) := wrap8_add_one s.sp.toNat

/-! ### Flags of a comparison (43_compare.md R160) -/

theorem compareFlags_cases (u v : Byte) :
    (u = v ∧ compareFlags u v = flEqual) ∨ (u.toNat < v.toNat ∧ compareFlags u v = flLess) ∨
    (v.toNat < u.toNat ∧ compareFlags u v = flGreater) := by
  unfold compareFlags
  by_cases e : u = v
  · exact .inl ⟨e, if_pos e⟩
  · by_cases l : u.toNat < v.toNat
    · exact .inr (.inl ⟨l, by rw [if_neg e, if_pos l]⟩)
    · have : u.toNat ≠ v.toNat := fun h => e (BitVec.eq_of_toNat_eq h)
      exact .inr (.inr ⟨by omega, by rw [if_neg e, if_neg l]⟩)

end Sys2Proof.Machine
end

