-- ==== Sys2Proof/Laws/Exec.lean ====
section
/-!
SUPPORT. One lemma per shape of instruction: everything a meaning of that shape can answer, for proofs to cite instead of
unfolding it.
-/
namespace Sys2Proof.Machine

/-- A binary ALU instruction writes its result and advances, or reports an illegal index. -/
theorem aluBinary_cases (op : Byte) (f : Byte → Byte → Byte) (a b : Byte) (s : State) :
    (∃ d r, ridx a = some d ∧ ridx b = some r ∧
      aluBinary op f a b s = .next ((s.setReg d (f (s.reg d) (s.reg r))).advance op)) ∨
    (∃ v, (v = a ∨ v = b) ∧ ridx v = none ∧ aluBinary op f a b s = .next (s.regIndexOut v)) :=
  withRegs_cases a b s _

/-- A unary ALU instruction writes its result and advances, or reports an illegal index. -/
theorem aluUnary_cases (op : Byte) (f : Byte → Byte) (a : Byte) (s : State) :
    (∃ d, ridx a = some d ∧ aluUnary op f a s = .next ((s.setReg d (f (s.reg d))).advance op)) ∨
    (ridx a = none ∧ aluUnary op f a s = .next (s.regIndexOut a)) :=
  withReg_cases a s _

/-- DIV and MOD: the zero-divisor path, the result, or the report of an illegal index. -/
theorem aluDivide_cases (op : Byte) (f : Byte → Byte → Byte) (a b : Byte) (s : State) :
    (∃ d r, ridx a = some d ∧ ridx b = some r ∧ s.reg r = 0 ∧ aluDivide op f a b s = .next (s.zeroDivisor op)) ∨
    (∃ d r, ridx a = some d ∧ ridx b = some r ∧ s.reg r ≠ 0 ∧
      aluDivide op f a b s = .next ((s.setReg d (f (s.reg d) (s.reg r))).advance op)) ∨
    (∃ v, (v = a ∨ v = b) ∧ ridx v = none ∧ aluDivide op f a b s = .next (s.regIndexOut v)) := by
  unfold aluDivide
  rcases withRegs_cases a b s fun d r =>
      if s.reg r = 0 then .next (s.zeroDivisor op)
      else .next ((s.setReg d (f (s.reg d) (s.reg r))).advance op) with ⟨d, r, hd, hr, e⟩ | h
  · by_cases hz : s.reg r = 0
    · exact .inl ⟨d, r, hd, hr, hz, e.trans (if_pos hz)⟩
    · exact .inr (.inl ⟨d, r, hd, hr, hz, e.trans (if_neg hz)⟩)
  · exact .inr (.inr h)

/-- The zero-divisor path: a report, `Halted`, and `pc` moved on; never AddrRangeFault (42_alu.md R146). -/
theorem State.zeroDivisor_eq (s : State) (op : Byte) :
    s.zeroDivisor op =
      ({ s.report ⟨.divideByZero, s.pc, op⟩ with halted := true } : State).setPc
        (BitVec.ofNat 8 (s.pc.toNat + opLength op)) :=
  State.advance_quiet _ op (.inr rfl)

/-- A conditional jump goes to its register's value, advances, or reports an illegal index. -/
theorem jumpIf_cases (cond : Bool) (op a : Byte) (s : State) :
    (∃ t, ridx a = some t ∧ cond = true ∧ jumpIf cond op a s = .next (s.setPc (s.reg t))) ∨
    (∃ t, ridx a = some t ∧ cond = false ∧ jumpIf cond op a s = .next (s.advance op)) ∨
    (ridx a = none ∧ jumpIf cond op a s = .next (s.regIndexOut a)) := by
  unfold jumpIf
  rcases withReg_cases a s fun t => .next (if cond then s.setPc (s.reg t) else s.advance op) with ⟨t, ht, e⟩ | h
  · cases cond
    · exact .inr (.inl ⟨t, ht, rfl, e⟩)
    · exact .inl ⟨t, ht, rfl, e⟩
  · exact .inr (.inr h)

/-- HLT never faults (46_system.md R200). -/
theorem execHlt_eq (s : State) :
    execHlt s = .next (({ s with halted := true } : State).setPc (BitVec.ofNat 8 (s.pc.toNat + 1))) :=
  congrArg Host.Outcome.next (State.advance_quiet { s with halted := true } Instr.hlt.opcode (.inr rfl))

/-! ### The inversion of exec: everything an instruction can do -/

/-- The state just before the sequential end of a step, for an instruction that ends with `advance()`: its effects on `s`
gave `u`. -/
def EffectGives (i : Instr) (s u : State) : Prop :=
  match i with
  | .nop => u = s
  | .hlt => u = { s with halted := true }
  | .ret => False
  | .iret => False
  | .push a =>
    ∃ r, ridx a = some r ∧
      u = (s.setSp s.pushAddr).memWrite s.pushAddr ((s.setSp s.pushAddr).reg r)
  | .pop a =>
    ∃ d, ridx a = some d ∧
      u = (s.setReg d (s.memRead s.sp)).setSp (s.setReg d (s.memRead s.sp)).popSp
  | .prn a => ∃ r, ridx a = some r ∧ u = s.emit .num (s.reg r)
  | .pra a => ∃ r, ridx a = some r ∧ u = s.emit .chr (s.reg r)
  | .call _ => False
  | .int _ => False
  | .jmp _ => False
  | .jeq a => ∃ r, ridx a = some r ∧ s.condEq = false ∧ u = s
  | .jne a => ∃ r, ridx a = some r ∧ s.condNe = false ∧ u = s
  | .jgt a => ∃ r, ridx a = some r ∧ s.condGt = false ∧ u = s
  | .jlt a => ∃ r, ridx a = some r ∧ s.condLt = false ∧ u = s
  | .jle a => ∃ r, ridx a = some r ∧ s.condLe = false ∧ u = s
  | .jge a => ∃ r, ridx a = some r ∧ s.condGe = false ∧ u = s
  | .inc a => ∃ d, ridx a = some d ∧ u = s.setReg d (aluInc (s.reg d))
  | .dec a => ∃ d, ridx a = some d ∧ u = s.setReg d (aluDec (s.reg d))
  | .not a => ∃ d, ridx a = some d ∧ u = s.setReg d (aluNot (s.reg d))
  | .ldi a b => ∃ d, ridx a = some d ∧ u = s.setReg d b
  | .ld a b => ∃ d p, ridx a = some d ∧ ridx b = some p ∧ u = s.setReg d (s.memRead (s.reg p))
  | .st a b => ∃ p r, ridx a = some p ∧ ridx b = some r ∧ u = s.memWrite (s.reg p) (s.reg r)
  | .add a b => ∃ d r, ridx a = some d ∧ ridx b = some r ∧ u = s.setReg d (aluAdd (s.reg d) (s.reg r))
  | .sub a b => ∃ d r, ridx a = some d ∧ ridx b = some r ∧ u = s.setReg d (aluSub (s.reg d) (s.reg r))
  | .mul a b => ∃ d r, ridx a = some d ∧ ridx b = some r ∧ u = s.setReg d (aluMul (s.reg d) (s.reg r))
  | .div a b =>
    ∃ d r, ridx a = some d ∧ ridx b = some r ∧
      ((s.reg r = 0 ∧ u = { s.report ⟨.divideByZero, s.pc, 0xA3⟩ with halted := true }) ∨
       (s.reg r ≠ 0 ∧ u = s.setReg d (aluDiv (s.reg d) (s.reg r))))
  | .mod a b =>
    ∃ d r, ridx a = some d ∧ ridx b = some r ∧
      ((s.reg r = 0 ∧ u = { s.report ⟨.divideByZero, s.pc, 0xA4⟩ with halted := true }) ∨
       (s.reg r ≠ 0 ∧ u = s.setReg d (aluMod (s.reg d) (s.reg r))))
  | .cmp a b => ∃ p q, ridx a = some p ∧ ridx b = some q ∧ u = s.setFl (compareFlags (s.reg p) (s.reg q))
  | .and a b => ∃ d r, ridx a = some d ∧ ridx b = some r ∧ u = s.setReg d (aluAnd (s.reg d) (s.reg r))
  | .or a b => ∃ d r, ridx a = some d ∧ ridx b = some r ∧ u = s.setReg d (aluOr (s.reg d) (s.reg r))
  | .xor a b => ∃ d r, ridx a = some d ∧ ridx b = some r ∧ u = s.setReg d (aluXor (s.reg d) (s.reg r))
  | .shl a b => ∃ d r, ridx a = some d ∧ ridx b = some r ∧ u = s.setReg d (aluShl (s.reg d) (s.reg r))
  | .shr a b => ∃ d r, ridx a = some d ∧ ridx b = some r ∧ u = s.setReg d (aluShr (s.reg d) (s.reg r))

/-- The next state of an instruction that does not end with `advance()`: a taken jump, CALL, RET, or a placeholder. -/
def ControlGives (i : Instr) (s t : State) : Prop :=
  match i with
  | .ret => t = (s.setPc (s.memRead s.sp)).setSp s.popSp
  | .iret => t = s.placeholder 0x13
  | .int _ => t = s.placeholder 0x52
  | .jmp a => ∃ r, ridx a = some r ∧ t = s.setPc (s.reg r)
  | .jeq a => ∃ r, ridx a = some r ∧ s.condEq = true ∧ t = s.setPc (s.reg r)
  | .jne a => ∃ r, ridx a = some r ∧ s.condNe = true ∧ t = s.setPc (s.reg r)
  | .jgt a => ∃ r, ridx a = some r ∧ s.condGt = true ∧ t = s.setPc (s.reg r)
  | .jlt a => ∃ r, ridx a = some r ∧ s.condLt = true ∧ t = s.setPc (s.reg r)
  | .jle a => ∃ r, ridx a = some r ∧ s.condLe = true ∧ t = s.setPc (s.reg r)
  | .jge a => ∃ r, ridx a = some r ∧ s.condGe = true ∧ t = s.setPc (s.reg r)
  | .call a =>
    ∃ r, ridx a = some r ∧
      ((255 < s.pc.toNat + 2 ∧ t = s.addrRangeOut s.pc 0x50) ∨
       (s.pc.toNat + 2 ≤ 255 ∧
         t = ((s.setSp s.pushAddr).memWrite s.pushAddr (BitVec.ofNat 8 (s.pc.toNat + 2))).setPc
           ((s.setSp s.pushAddr).reg r)))
  | .nop => False
  | .hlt => False
  | .push _ => False
  | .pop _ => False
  | .prn _ => False
  | .pra _ => False
  | .inc _ => False
  | .dec _ => False
  | .not _ => False
  | .ldi _ _ => False
  | .ld _ _ => False
  | .st _ _ => False
  | .add _ _ => False
  | .sub _ _ => False
  | .mul _ _ => False
  | .div _ _ => False
  | .mod _ _ => False
  | .cmp _ _ => False
  | .and _ _ => False
  | .or _ _ => False
  | .xor _ _ => False
  | .shl _ _ => False
  | .shr _ _ => False

/-- Everything an instruction can do: an index above 7 is reported and nothing else happens; or its effects are followed by
the sequential advance; or it sets `pc` itself or raises PlaceholderFault. -/
def ExecGives (i : Instr) (s t : State) : Prop :=
  (∃ v, v ∈ i.regOperands ∧ ridx v = none ∧ t = s.regIndexOut v) ∨
  (∃ u, EffectGives i s u ∧ t = u.advance i.opcode) ∨
  ControlGives i s t

theorem withReg_gives {i : Instr} {a : Byte} {s : State} {k : Reg → Result} (hi : i.regOperands = [a])
    (hk : ∀ r, ridx a = some r → ∃ t, k r = .next t ∧ ExecGives i s t) :
    ∃ t, withReg a s k = .next t ∧ ExecGives i s t := by
  rcases withReg_cases a s k with ⟨r, hr, e⟩ | ⟨hn, e⟩
  · rw [e]; exact hk r hr
  · exact ⟨_, e, .inl ⟨a, by simp [hi], hn, rfl⟩⟩

theorem withRegs_gives {i : Instr} {a b : Byte} {s : State} {k : Reg → Reg → Result} (hi : i.regOperands = [a, b])
    (hk : ∀ p q, ridx a = some p → ridx b = some q → ∃ t, k p q = .next t ∧ ExecGives i s t) :
    ∃ t, withRegs a b s k = .next t ∧ ExecGives i s t := by
  rcases withRegs_cases a b s k with ⟨p, q, hp, hq, e⟩ | ⟨v, hv, hn, e⟩
  · rw [e]; exact hk p q hp hq
  · exact ⟨_, e, .inl ⟨v, by simpa [hi] using hv, hn, rfl⟩⟩

theorem jumpIf_gives {i : Instr} {cond : Bool} {op a : Byte} {s : State} (hi : i.regOperands = [a]) (ho : i.opcode = op)
    (ht : ∀ r, ridx a = some r → cond = true → ControlGives i s (s.setPc (s.reg r)))
    (hf : ∀ r, ridx a = some r → cond = false → EffectGives i s s) :
    ∃ t, jumpIf cond op a s = .next t ∧ ExecGives i s t := by
  refine withReg_gives hi fun r hr => ⟨_, rfl, ?_⟩
  cases hc : cond with
  | true => exact .inr (.inr (ht r hr hc))
  | false => exact .inr (.inl ⟨s, hf r hr hc, by rw [ho]; rfl⟩)

theorem aluDivide_gives {i : Instr} {op a b : Byte} {f : Byte → Byte → Byte} {s : State} (hi : i.regOperands = [a, b])
    (ho : i.opcode = op)
    (hz : ∀ d r, ridx a = some d → ridx b = some r → s.reg r = 0 →
      EffectGives i s { s.report ⟨.divideByZero, s.pc, op⟩ with halted := true })
    (hn : ∀ d r, ridx a = some d → ridx b = some r → s.reg r ≠ 0 → EffectGives i s (s.setReg d (f (s.reg d) (s.reg r)))) :
    ∃ t, aluDivide op f a b s = .next t ∧ ExecGives i s t := by
  refine withRegs_gives hi fun d r hd hr => ?_
  by_cases h : s.reg r = 0
  · exact ⟨_, if_pos h, .inr (.inl ⟨_, hz d r hd hr h, by rw [ho]; rfl⟩)⟩
  · exact ⟨_, if_neg h, .inr (.inl ⟨_, hn d r hd hr h, by rw [ho]⟩)⟩

theorem execCall_gives (a : Byte) (s : State) : ∃ t, execCall a s = .next t ∧ ExecGives (.call a) s t := by
  refine withReg_gives rfl fun r hr => ?_
  have hl : opLength (Instr.call a).opcode = 2 := by simp [Instr.opcode, Config.opcodes, opLength, operandCount]
  simp only [hl]
  by_cases h : Config.memSize ≤ s.pc.toNat + 2
  · exact ⟨_, if_pos h, .inr (.inr ⟨r, hr, .inl ⟨by simp only [Config.memSize] at h; omega, rfl⟩⟩)⟩
  · refine ⟨_, if_neg h, .inr (.inr ⟨r, hr, .inr ⟨by simp only [Config.memSize] at h; omega, ?_⟩⟩)⟩
    rw [wrap8_natCast, State.sp_setSp]

/-- Every instruction answers a next state, and this is everything that state can be. -/
theorem exec_gives (i : Instr) (s : State) : ∃ t, exec i s = .next t ∧ ExecGives i s t := by
  cases i with
  | nop => exact ⟨_, rfl, .inr (.inl ⟨s, rfl, rfl⟩)⟩
  | hlt => exact ⟨_, rfl, .inr (.inl ⟨_, rfl, rfl⟩)⟩
  | ret => exact ⟨_, rfl, .inr (.inr rfl)⟩
  | iret => exact ⟨_, rfl, .inr (.inr rfl)⟩
  | int a => exact ⟨_, rfl, .inr (.inr rfl)⟩
  | call a => exact execCall_gives a s
  | jmp a => exact withReg_gives rfl fun r hr => ⟨_, rfl, .inr (.inr ⟨r, hr, rfl⟩)⟩
  | push a =>
    refine withReg_gives rfl fun r hr => ⟨_, rfl, .inr (.inl ⟨_, ⟨r, hr, ?_⟩, rfl⟩)⟩
    rw [State.sp_setSp]
  | pop a => exact withReg_gives rfl fun r hr => ⟨_, rfl, .inr (.inl ⟨_, ⟨r, hr, rfl⟩, rfl⟩)⟩
  | prn a => exact withReg_gives rfl fun r hr => ⟨_, rfl, .inr (.inl ⟨_, ⟨r, hr, rfl⟩, rfl⟩)⟩
  | pra a => exact withReg_gives rfl fun r hr => ⟨_, rfl, .inr (.inl ⟨_, ⟨r, hr, rfl⟩, rfl⟩)⟩
  | jeq a => exact jumpIf_gives rfl rfl (fun r hr hc => ⟨r, hr, hc, rfl⟩) fun r hr hc => ⟨r, hr, hc, rfl⟩
  | jne a => exact jumpIf_gives rfl rfl (fun r hr hc => ⟨r, hr, hc, rfl⟩) fun r hr hc => ⟨r, hr, hc, rfl⟩
  | jgt a => exact jumpIf_gives rfl rfl (fun r hr hc => ⟨r, hr, hc, rfl⟩) fun r hr hc => ⟨r, hr, hc, rfl⟩
  | jlt a => exact jumpIf_gives rfl rfl (fun r hr hc => ⟨r, hr, hc, rfl⟩) fun r hr hc => ⟨r, hr, hc, rfl⟩
  | jle a => exact jumpIf_gives rfl rfl (fun r hr hc => ⟨r, hr, hc, rfl⟩) fun r hr hc => ⟨r, hr, hc, rfl⟩
  | jge a => exact jumpIf_gives rfl rfl (fun r hr hc => ⟨r, hr, hc, rfl⟩) fun r hr hc => ⟨r, hr, hc, rfl⟩
  | inc a => exact withReg_gives rfl fun r hr => ⟨_, rfl, .inr (.inl ⟨_, ⟨r, hr, rfl⟩, rfl⟩)⟩
  | dec a => exact withReg_gives rfl fun r hr => ⟨_, rfl, .inr (.inl ⟨_, ⟨r, hr, rfl⟩, rfl⟩)⟩
  | not a => exact withReg_gives rfl fun r hr => ⟨_, rfl, .inr (.inl ⟨_, ⟨r, hr, rfl⟩, rfl⟩)⟩
  | ldi a b => exact withReg_gives rfl fun r hr => ⟨_, rfl, .inr (.inl ⟨_, ⟨r, hr, rfl⟩, rfl⟩)⟩
  | ld a b => exact withRegs_gives rfl fun p q hp hq => ⟨_, rfl, .inr (.inl ⟨_, ⟨p, q, hp, hq, rfl⟩, rfl⟩)⟩
  | st a b => exact withRegs_gives rfl fun p q hp hq => ⟨_, rfl, .inr (.inl ⟨_, ⟨p, q, hp, hq, rfl⟩, rfl⟩)⟩
  | add a b => exact withRegs_gives rfl fun p q hp hq => ⟨_, rfl, .inr (.inl ⟨_, ⟨p, q, hp, hq, rfl⟩, rfl⟩)⟩
  | sub a b => exact withRegs_gives rfl fun p q hp hq => ⟨_, rfl, .inr (.inl ⟨_, ⟨p, q, hp, hq, rfl⟩, rfl⟩)⟩
  | mul a b => exact withRegs_gives rfl fun p q hp hq => ⟨_, rfl, .inr (.inl ⟨_, ⟨p, q, hp, hq, rfl⟩, rfl⟩)⟩
  | cmp a b => exact withRegs_gives rfl fun p q hp hq => ⟨_, rfl, .inr (.inl ⟨_, ⟨p, q, hp, hq, rfl⟩, rfl⟩)⟩
  | and a b => exact withRegs_gives rfl fun p q hp hq => ⟨_, rfl, .inr (.inl ⟨_, ⟨p, q, hp, hq, rfl⟩, rfl⟩)⟩
  | or a b => exact withRegs_gives rfl fun p q hp hq => ⟨_, rfl, .inr (.inl ⟨_, ⟨p, q, hp, hq, rfl⟩, rfl⟩)⟩
  | xor a b => exact withRegs_gives rfl fun p q hp hq => ⟨_, rfl, .inr (.inl ⟨_, ⟨p, q, hp, hq, rfl⟩, rfl⟩)⟩
  | shl a b => exact withRegs_gives rfl fun p q hp hq => ⟨_, rfl, .inr (.inl ⟨_, ⟨p, q, hp, hq, rfl⟩, rfl⟩)⟩
  | shr a b => exact withRegs_gives rfl fun p q hp hq => ⟨_, rfl, .inr (.inl ⟨_, ⟨p, q, hp, hq, rfl⟩, rfl⟩)⟩
  | div a b =>
    exact aluDivide_gives rfl rfl (fun d r hd hr hz => ⟨d, r, hd, hr, .inl ⟨hz, rfl⟩⟩)
      fun d r hd hr hz => ⟨d, r, hd, hr, .inr ⟨hz, rfl⟩⟩
  | mod a b =>
    exact aluDivide_gives rfl rfl (fun d r hd hr hz => ⟨d, r, hd, hr, .inl ⟨hz, rfl⟩⟩)
      fun d r hd hr hz => ⟨d, r, hd, hr, .inr ⟨hz, rfl⟩⟩

/-- The inversion lemma: what a next state of an instruction can be. -/
theorem exec_inv {i : Instr} {s t : State} (h : exec i s = .next t) : ExecGives i s t := by
  obtain ⟨u, hu, hg⟩ := exec_gives i s
  rw [hu] at h
  cases h
  exact hg

end Sys2Proof.Machine
end

