-- ==== Sys2Proof/Laws/Step.lean ====
section
/-!
SUPPORT. What a step can do, said once: the run is over, an instruction runs, an unrecognised byte is skipped, or the fetch
runs past the top of memory.
-/
namespace Sys2Proof.Machine

theorem State.stopped_false_iff (s : State) : s.stopped = false ↔ s.halted = false ∧ s.faulted = none := by
  cases hf : s.faulted <;> simp [State.stopped, hf]

theorem step_instr {s : State} {i : Instr} {rest : List Byte} (h : s.stopped = false) (hf : fetch s = .instr i rest) :
    step s = exec i s := by
  simp only [step, h, hf, Bool.false_eq_true, if_false]

theorem step_unrecognised {s : State} {op : Byte} {rest : List Byte} (h : s.stopped = false)
    (hf : fetch s = .unrecognised op rest) : step s = execUnrecognised op s := by
  simp only [step, h, hf, Bool.false_eq_true, if_false]

theorem step_truncated {s : State} {op : Byte} (h : s.stopped = false) (hf : fetch s = .truncated op) :
    step s = fetchOutOfRange op s := by
  simp only [step, h, hf, Bool.false_eq_true, if_false]

/-- Everything a step can do. -/
theorem step_cases (s : State) :
    (s.stopped = true ∧ step s = runOver s) ∨
    (s.stopped = false ∧ ∃ i rest, fetch s = .instr i rest ∧ step s = exec i s) ∨
    (s.stopped = false ∧ ∃ op rest, fetch s = .unrecognised op rest ∧ step s = execUnrecognised op s) ∨
    (s.stopped = false ∧ ∃ op, fetch s = .truncated op ∧ step s = fetchOutOfRange op s) := by
  cases h : s.stopped with
  | true => exact .inl ⟨rfl, if_pos h⟩
  | false =>
    cases hf : fetch s with
    | instr i rest => exact .inr (.inl ⟨rfl, i, rest, rfl, step_instr h hf⟩)
    | unrecognised op rest => exact .inr (.inr (.inl ⟨rfl, op, rest, rfl, step_unrecognised h hf⟩))
    | truncated op => exact .inr (.inr (.inr ⟨rfl, op, rfl, step_truncated h hf⟩))

/-- The byte an undecoded fetch names is the opcode byte at `pc`. -/
theorem fetch_op {s : State} {op : Byte} (h : (∃ rest, fetch s = .unrecognised op rest) ∨ fetch s = .truncated op) :
    op = s.opcodeByte := by
  unfold fetch at h
  rcases decode_cases s.opcodeByte s.operandBytes with ⟨-, e⟩ | ⟨-, -, e⟩ | ⟨row, -, -, e⟩ <;>
    rw [e] at h <;> rcases h with ⟨rest, h⟩ | h <;> cases h <;> rfl

/-- A run of `n + 1` steps is one step and then a run of `n`. -/
theorem run_succ (n : Nat) {s t : State} (h : step s = .next t) :
    Sys2Proof.core.run (n + 1) s = Sys2Proof.core.run n t := by
  have e := Host.Core.run.eq_2 Sys2Proof.core s n
  rw [show Sys2Proof.core.step s = .next t from h] at e
  exact e

end Sys2Proof.Machine
end

