-- ==== Sys2Proof/Laws/Effects.lean ====
section
/-!
SUPPORT. What the inversion of `exec` says field by field: which effects touch `pc`, `FL`, `Halted`, the event list, `Faulted`
and the canonical form of memory. The proofs over all instructions cite these and never split an instruction again.
-/
namespace Sys2Proof

/-- A table row builds an instruction with the row's own opcode byte. -/
theorem opcodeTable_build_opcode {row : OpcodeRow} (h : row ∈ opcodeTable) (a b : Byte) :
    (row.build a b).opcode = row.opcode := by
  simp only [opcodeTable, List.cons_append, List.nil_append, List.mem_cons, List.not_mem_nil, or_false] at h
  rcases h with h | h | h | h | h | h | h | h | h | h | h | h | h | h | h | h | h | h | h | h | h | h | h | h | h | h | h | h |
    h | h | h | h | h | h <;> subst h <;> rfl

namespace Machine

/-! ### Effects before the sequential end -/

variable {i : Instr} {s u t : State}

/-- No effect before the advance moves `pc`. -/
theorem EffectGives_pc (h : EffectGives i s u) : u.pc = s.pc := by
  cases i <;> simp only [EffectGives] at h <;>
    first
    | exact h.elim
    | (obtain ⟨p, q, -, -, ⟨-, rfl⟩ | ⟨-, rfl⟩⟩ := h <;> rfl)

/-- `FL` is kept, but for CMP. -/
theorem EffectGives_fl (h : EffectGives i s u) :
    u.fl = s.fl ∨
    ∃ a b p q, i = .cmp a b ∧ ridx a = some p ∧ ridx b = some q ∧ u.fl = compareFlags (s.reg p) (s.reg q) := by
  cases i <;> simp only [EffectGives] at h <;>
    first
    | exact h.elim
    | (obtain ⟨p, q, h1, h2, rfl⟩ := h; exact .inr ⟨_, _, p, q, rfl, h1, h2, rfl⟩)
    | (obtain ⟨p, q, -, -, ⟨-, rfl⟩ | ⟨-, rfl⟩⟩ := h <;> exact .inl rfl)

/-- `Halted` is kept, but for HLT and a zero divisor. -/
theorem EffectGives_halted (h : EffectGives i s u) :
    u.halted = s.halted ∨
    u.halted = true ∧ (i = .hlt ∨ ∃ a b q, (i = .div a b ∨ i = .mod a b) ∧ ridx b = some q ∧ s.reg q = 0) := by
  cases i <;> simp only [EffectGives] at h <;>
    first
    | (subst h; exact .inr ⟨rfl, .inl rfl⟩)
    | (obtain ⟨p, q, -, hq, ⟨hz, rfl⟩ | ⟨-, rfl⟩⟩ := h <;>
        first
        | exact .inl rfl
        | exact .inr ⟨rfl, .inr ⟨_, _, q, .inl rfl, hq, hz⟩⟩
        | exact .inr ⟨rfl, .inr ⟨_, _, q, .inr rfl, hq, hz⟩⟩)

/-- `Faulted` is kept, and the event list gains at most one event: PRN's, PRA's, or the report of a zero divisor. -/
theorem EffectGives_events (h : EffectGives i s u) :
    u.faulted = s.faulted ∧
    ((u.events = s.events ∧ (∀ a, i ≠ .prn a) ∧ (∀ a, i ≠ .pra a)) ∨
     (∃ a r, i = .prn a ∧ ridx a = some r ∧ u.events = s.events ++ [.out .num (s.reg r)]) ∨
     (∃ a r, i = .pra a ∧ ridx a = some r ∧ u.events = s.events ++ [.out .chr (s.reg r)]) ∨
     (∃ op a b q, (i = .div a b ∧ op = 0xA3#8 ∨ i = .mod a b ∧ op = 0xA4#8) ∧ ridx b = some q ∧ s.reg q = 0 ∧
        u.halted = true ∧ u.events = s.events ++ [.rpt ⟨.divideByZero, s.pc, op⟩])) := by
  cases i
  case prn a => obtain ⟨p, hp, rfl⟩ := h; exact ⟨rfl, .inr (.inl ⟨_, p, rfl, hp, rfl⟩)⟩
  case pra a => obtain ⟨p, hp, rfl⟩ := h; exact ⟨rfl, .inr (.inr (.inl ⟨_, p, rfl, hp, rfl⟩))⟩
  case div a b =>
    obtain ⟨p, q, hp, hq, ⟨hz, rfl⟩ | ⟨-, rfl⟩⟩ := h
    · exact ⟨rfl, .inr (.inr (.inr ⟨0xA3#8, _, _, q, .inl ⟨rfl, rfl⟩, hq, hz, rfl, rfl⟩))⟩
    · exact ⟨rfl, .inl ⟨rfl, nofun, nofun⟩⟩
  case mod a b =>
    obtain ⟨p, q, hp, hq, ⟨hz, rfl⟩ | ⟨-, rfl⟩⟩ := h
    · exact ⟨rfl, .inr (.inr (.inr ⟨0xA4#8, _, _, q, .inr ⟨rfl, rfl⟩, hq, hz, rfl, rfl⟩))⟩
    · exact ⟨rfl, .inl ⟨rfl, nofun, nofun⟩⟩
  all_goals
    simp only [EffectGives] at h <;>
    first
    | (subst h; exact ⟨rfl, .inl ⟨rfl, nofun, nofun⟩⟩)
    | (obtain ⟨p, -, rfl⟩ := h; exact ⟨rfl, .inl ⟨rfl, nofun, nofun⟩⟩)
    | (obtain ⟨p, -, -, rfl⟩ := h; exact ⟨rfl, .inl ⟨rfl, nofun, nofun⟩⟩)
    | (obtain ⟨p, q, -, -, rfl⟩ := h; exact ⟨rfl, .inl ⟨rfl, nofun, nofun⟩⟩)

/-- Effects keep memory canonical. -/
theorem EffectGives_mem_wf (h : EffectGives i s u) (hw : s.mem.wf = true) : u.mem.wf = true := by
  cases i
  case push a => obtain ⟨p, -, rfl⟩ := h; exact Memory.write_wf _ _ hw
  case st a b => obtain ⟨p, q, -, -, rfl⟩ := h; exact Memory.write_wf _ _ hw
  all_goals
    simp only [EffectGives] at h <;>
    first
    | exact h.elim
    | (obtain ⟨p, q, -, -, ⟨-, rfl⟩ | ⟨-, rfl⟩⟩ := h <;> exact hw)

/-- The inversion read the other way: an instruction whose effects are `u` completes with them and the sequential advance. -/
theorem exec_of_effect (h : EffectGives i s u) : exec i s = .next (u.advance i.opcode) := by
  cases i <;> simp only [EffectGives] at h
  case push a =>
    obtain ⟨p, hp, rfl⟩ := h
    refine (withReg_some hp s _).trans ?_
    dsimp only
    rw [State.sp_setSp]
  all_goals
    first
    | exact h.elim
    | (subst h; rfl)
    | (obtain ⟨p, hp, rfl⟩ := h; exact withReg_some hp s _)
    | (obtain ⟨p, hp, hc, rfl⟩ := h; exact (withReg_some hp u _).trans (by rw [hc]; rfl))
    | (obtain ⟨p, q, hp, hq, rfl⟩ := h; exact withRegs_some hp hq s _)
    | (obtain ⟨p, q, hp, hq, ⟨hz, rfl⟩ | ⟨hz, rfl⟩⟩ := h
       · exact (withRegs_some hp hq s _).trans (if_pos hz)
       · exact (withRegs_some hp hq s _).trans (if_neg hz))

/-! ### Control transfer and placeholders -/

/-- `FL` and `Halted` are kept. -/
theorem ControlGives_fl_halted (h : ControlGives i s t) : t.fl = s.fl ∧ t.halted = s.halted := by
  cases i
  case call a => obtain ⟨p, -, ⟨-, rfl⟩ | ⟨-, rfl⟩⟩ := h <;> exact ⟨rfl, rfl⟩
  all_goals
    simp only [ControlGives] at h <;>
    first
    | (subst h; exact ⟨rfl, rfl⟩)
    | (obtain ⟨p, -, rfl⟩ := h; exact ⟨rfl, rfl⟩)
    | (obtain ⟨p, -, -, rfl⟩ := h; exact ⟨rfl, rfl⟩)

/-- Either events and `Faulted` are kept, or a fault is all that happens. -/
theorem ControlGives_events (h : ControlGives i s t) :
    (∀ a, i ≠ .prn a) ∧ (∀ a, i ≠ .pra a) ∧
    ((t.events = s.events ∧ t.faulted = s.faulted) ∨ ∃ c, c.isFault = true ∧ t = failed c i.opcode s) := by
  cases i
  case call a =>
    obtain ⟨p, -, ⟨-, rfl⟩ | ⟨-, rfl⟩⟩ := h
    · exact ⟨nofun, nofun, .inr ⟨.addrRange, rfl, rfl⟩⟩
    · exact ⟨nofun, nofun, .inl ⟨rfl, rfl⟩⟩
  case int a => subst h; exact ⟨nofun, nofun, .inr ⟨.placeholder, rfl, rfl⟩⟩
  case iret => subst h; exact ⟨nofun, nofun, .inr ⟨.placeholder, rfl, rfl⟩⟩
  all_goals
    simp only [ControlGives] at h <;>
    first
    | (subst h; exact ⟨nofun, nofun, .inl ⟨rfl, rfl⟩⟩)
    | (obtain ⟨p, -, rfl⟩ := h; exact ⟨nofun, nofun, .inl ⟨rfl, rfl⟩⟩)
    | (obtain ⟨p, -, -, rfl⟩ := h; exact ⟨nofun, nofun, .inl ⟨rfl, rfl⟩⟩)

/-- Memory stays canonical. -/
theorem ControlGives_mem_wf (h : ControlGives i s t) (hw : s.mem.wf = true) : t.mem.wf = true := by
  cases i
  case call a =>
    obtain ⟨p, -, ⟨-, rfl⟩ | ⟨-, rfl⟩⟩ := h
    · exact hw
    · exact Memory.write_wf _ _ hw
  all_goals
    simp only [ControlGives] at h <;>
    first
    | (subst h; exact hw)
    | (obtain ⟨p, -, rfl⟩ := h; exact hw)
    | (obtain ⟨p, -, -, rfl⟩ := h; exact hw)

/-! ### The advance, and the step -/

/-- What the advance does to events and `Faulted`. -/
theorem State.advance_events (s : State) (op : Byte) :
    ((s.advance op).events = s.events ∧ (s.advance op).faulted = s.faulted) ∨
    ((s.advance op).events = s.events ++ [.rpt ⟨.addrRange, s.pc, op⟩] ∧
      (s.advance op).faulted = some ⟨.addrRange, s.pc, op⟩ ∧ 255 < s.pc.toNat + opLength op ∧ s.halted = false) := by
  rcases State.advance_cases s op with e | ⟨h1, h2, e⟩ <;> rw [e]
  · exact .inl ⟨rfl, rfl⟩
  · exact .inr ⟨rfl, rfl, h1, h2⟩

/-- The written-out advance of the statements is the machine's. -/
theorem advance_eq_advanced (op : Byte) (s : State) : s.advance op = advanced op (opLength op) s := by
  unfold advanced
  by_cases h : s.pc.toNat + opLength op ≤ 255 ∨ s.halted = true
  · rw [if_pos h, State.advance_quiet s op (h.imp_left fun h => by omega)]; rfl
  · rw [if_neg h]
    have h1 : 255 < s.pc.toNat + opLength op := by omega
    have h2 : s.halted = false := by simpa using fun e => h (.inr e)
    rw [State.advance_past s op h1 h2]; rfl

/-- A fetched instruction has the opcode byte at `pc`, and all its declared bytes exist. -/
theorem fetch_instr_opcode {rest : List Byte} (h : fetch s = .instr i rest) :
    i.opcode = s.opcodeByte ∧ s.pc.toNat + operandCount s.opcodeByte ≤ 255 := by
  constructor
  · unfold fetch at h
    rcases decode_cases s.opcodeByte s.operandBytes with ⟨-, e⟩ | ⟨-, -, e⟩ | ⟨row, -, hr, e⟩ <;> rw [e] at h <;> cases h
    obtain ⟨hm, ho⟩ := lookupOpcode_sound hr
    exact (opcodeTable_build_opcode hm _ _).trans ho
  · by_contra hc
    rw [fetch_truncated s (by omega)] at h
    cases h

/-- Everything a step of a running machine can do: an operand byte is out of range, an instruction runs, or an unrecognised
byte is skipped. -/
theorem step_gives (hs : s.stopped = false) (h : step s = .next t) :
    (fetch s = .truncated s.opcodeByte ∧ t = failed .addrRange s.opcodeByte s) ∨
    (∃ i rest, fetch s = .instr i rest ∧ ExecGives i s t) ∨
    (∃ rest, fetch s = .unrecognised s.opcodeByte rest ∧
      t = (s.report ⟨.unrecognised, s.pc, s.opcodeByte⟩).advance s.opcodeByte) := by
  rcases step_cases s with ⟨h', -⟩ | ⟨-, i, r, hf, e⟩ | ⟨-, op, r, hf, e⟩ | ⟨-, op, hf, e⟩
  · rw [hs] at h'; cases h'
  · rw [e] at h; exact .inr (.inl ⟨i, r, hf, exec_inv h⟩)
  · have ho := fetch_op (.inl ⟨r, hf⟩)
    subst ho
    rw [e] at h; cases h
    exact .inr (.inr ⟨r, hf, rfl⟩)
  · have ho := fetch_op (.inr hf)
    subst ho
    rw [e] at h; cases h
    exact .inl ⟨hf, rfl⟩

end Machine
end Sys2Proof
end

