-- ==== Sys2Proof/Tests/Slice0.lean ====
section
/-!
SUPPORT. The model's own tests. Expected values are those of spec/95_test_vectors.md (section named at each group) or of the
worked examples in the instruction rules; words are written out from the encodings of 30_encoding.md R88. At the end, one
witness for every statement of Certificates/Slice0/Obligations.lean that has hypotheses.
-/

open Sys2Proof Sys2Proof.Machine

/-! ### Helpers -/

/-- The start-of-run state with the given registers, the program counter at `pc`, and `bytes` stored from there. -/
def Tests.running (regs : Vector Byte 8) (pc : Byte) (bytes : List Byte) : State :=
  ({ State.reset with regs := regs, pc := pc } : State).placeAtPc bytes

/-- The state an answer leads to; the reset state if it leads to none. -/
def Tests.after (r : Result) : State :=
  match r with
  | .next s => s
  | .fault _ => State.reset
  | .refused _ => State.reset

/-- Some different small values, SP at its reset value. -/
def Tests.regs : Vector Byte 8 := #v[0, 1, 0x30, 3, 4, 5, 6, 0xF4]

/-- `x[0] = u`, `x[1] = v`, SP at its reset value. -/
def Tests.pair (u v : Byte) : Vector Byte 8 := #v[u, v, 0, 0, 0, 0, 0, 0xF4]

/-- `x[0]` after one step of a two-operand instruction on `x[0] = u`, `x[1] = v` (95_test_vectors.md 2.4). -/
def Tests.binary (op u v : Byte) : Byte := (Tests.after (step (Tests.running (Tests.pair u v) 0 [op, 0, 1]))).reg 0

/-- `x[0]` after one step of a one-operand instruction on `x[0] = u`. -/
def Tests.unary (op u : Byte) : Byte := (Tests.after (step (Tests.running (Tests.pair u 7) 0 [op, 0]))).reg 0

/-- `pc` after a jump `op` through `R2 = 0x30` at 0x10, for each of the four values of `FL` (95_test_vectors.md 2.6). -/
def Tests.jumps (op : Byte) : List Byte :=
  [0x00, 0x01, 0x02, 0x04].map fun fl =>
    (Tests.after (step { Tests.running Tests.regs 0x10 [op, 2] with fl := fl })).pc

/-! ### Well-formedness (30_encoding.md R85, R86, R87; 46_system.md R202) -/

theorem test_wellFormed_refuses_index_8_in_a :
    [Instr.push 8, .pop 8, .prn 8, .pra 8, .call 8, .jmp 8, .jeq 8, .jne 8, .jgt 8, .jlt 8, .jle 8, .jge 8, .inc 8, .dec 8,
      .not 8, .ldi 8 5, .ld 8 0, .st 8 0].all (fun i => !i.wellFormed) = true := by decide
theorem test_wellFormed_refuses_index_8_in_a_of_alu :
    [Instr.add 8 0, .sub 8 0, .mul 8 0, .div 8 0, .mod 8 0, .cmp 8 0, .and 8 0, .or 8 0, .xor 8 0, .shl 8 0,
      .shr 8 0].all (fun i => !i.wellFormed) = true := by decide
theorem test_wellFormed_refuses_index_above_7_in_b :
    [Instr.ld 0 8, .st 0 255, .add 0 9, .sub 0 8, .mul 0 8, .div 0 8, .mod 0 8, .cmp 0 8, .and 0 8, .or 0 8, .xor 0 8,
      .shl 0 8, .shr 0 8].all (fun i => !i.wellFormed) = true := by decide
theorem test_wellFormed_accepts_legal :
    [Instr.ldi 7 255, .ldi 0 8, .int 9, .add 7 7, .push 7, .ret, .nop].all Instr.wellFormed = true := by decide

/-! ### Decoding, by words written out from 30_encoding.md R88 -/

theorem test_decode_no_operand :
    decode 0b00000000 [] = .instr .nop [] ∧
    decode 0b00000001 [] = .instr .hlt [] ∧
    decode 0b00010001 [] = .instr .ret [] ∧
    decode 0b00010011 [] = .instr .iret [] := by decide

theorem test_decode_stack_and_output :
    decode 0b01000101 [0b00000101] = .instr (.push 5) [] ∧
    decode 0b01000110 [0b00000101] = .instr (.pop 5) [] ∧
    decode 0b01000111 [0b00000101] = .instr (.prn 5) [] ∧
    decode 0b01001000 [0b00000101] = .instr (.pra 5) [] := by decide

theorem test_decode_control_transfer :
    decode 0b01010000 [0b00000101] = .instr (.call 5) [] ∧
    decode 0b01010010 [0b00000101] = .instr (.int 5) [] ∧
    decode 0b01010100 [0b00000101] = .instr (.jmp 5) [] ∧
    decode 0b01010101 [0b00000101] = .instr (.jeq 5) [] ∧
    decode 0b01010110 [0b00000101] = .instr (.jne 5) [] := by decide

theorem test_decode_ordered_jumps :
    decode 0b01010111 [0b00000101] = .instr (.jgt 5) [] ∧
    decode 0b01011000 [0b00000101] = .instr (.jlt 5) [] ∧
    decode 0b01011001 [0b00000101] = .instr (.jle 5) [] ∧
    decode 0b01011010 [0b00000101] = .instr (.jge 5) [] := by decide

theorem test_decode_unary_alu :
    decode 0b01100101 [0b00000101] = .instr (.inc 5) [] ∧
    decode 0b01100110 [0b00000101] = .instr (.dec 5) [] ∧
    decode 0b01101001 [0b00000101] = .instr (.not 5) [] := by decide

theorem test_decode_data_movement :
    decode 0b10000010 [0b00000001, 0b00000110] = .instr (.ldi 1 6) [] ∧
    decode 0b10000011 [0b00000001, 0b00000110] = .instr (.ld 1 6) [] ∧
    decode 0b10000100 [0b00000001, 0b00000110] = .instr (.st 1 6) [] := by decide

theorem test_decode_arithmetic_and_compare :
    decode 0b10100000 [0b00000001, 0b00000110] = .instr (.add 1 6) [] ∧
    decode 0b10100001 [0b00000001, 0b00000110] = .instr (.sub 1 6) [] ∧
    decode 0b10100010 [0b00000001, 0b00000110] = .instr (.mul 1 6) [] ∧
    decode 0b10100011 [0b00000001, 0b00000110] = .instr (.div 1 6) [] ∧
    decode 0b10100100 [0b00000001, 0b00000110] = .instr (.mod 1 6) [] ∧
    decode 0b10100111 [0b00000001, 0b00000110] = .instr (.cmp 1 6) [] := by decide

theorem test_decode_bitwise_and_shifts :
    decode 0b10101000 [0b00000001, 0b00000110] = .instr (.and 1 6) [] ∧
    decode 0b10101010 [0b00000001, 0b00000110] = .instr (.or 1 6) [] ∧
    decode 0b10101011 [0b00000001, 0b00000110] = .instr (.xor 1 6) [] ∧
    decode 0b10101100 [0b00000001, 0b00000110] = .instr (.shl 1 6) [] ∧
    decode 0b10101101 [0b00000001, 0b00000110] = .instr (.shr 1 6) [] := by decide

/-- 95_test_vectors.md 2.1 and 2.9: unrecognised bytes are skipped by the length of their top bits; short ones are cut off. -/
theorem test_decode_unrecognised :
    decode 0x02 [7] = .unrecognised 0x02 [7] ∧ decode 0x5B [0, 7] = .unrecognised 0x5B [7] ∧
    decode 0xC0 [0xAA, 0xBB, 0xCC] = .unrecognised 0xC0 [] ∧ decode 0xC0 [0xAA, 0xBB] = .truncated 0xC0 ∧
    decode 0x82 [0] = .truncated 0x82 := by decide

/-- 95_test_vectors.md 2.1: operand count, length and sets-PC bit. -/
theorem test_top_bits :
    [0x11, 0x45, 0x5B, 0x82, 0xC0, 0xFF].map (fun op : Byte => (operandCount op, opLength op, setsPcBit op)) =
      [(0, 1, true), (1, 2, false), (1, 2, true), (2, 3, false), (3, 4, false), (3, 4, true)] := by decide

/-- Of the unrecognised bytes 117 have bit 4 set (95_test_vectors.md 2.1). -/
theorem test_unrecognised_with_bit4 :
    ((List.range 256).filter fun n => (lookupOpcode (BitVec.ofNat 8 n)).isNone && setsPcBit (BitVec.ofNat 8 n)).length =
      117 := by decide +kernel

/-! ### The host's words -/

theorem test_table_word : decodeTableWord 24 0x0800_82 = some (.ldi 0 8) ∧ decodeTableWord 8 0x82 = some (.ldi 0 0) ∧
    decodeTableWord 8 0xC0 = none := by decide
theorem test_withFetchWord : (Tests.after (step (State.reset.withFetchWord 24 0x0800_82))).reg 0 = 8 := by decide
theorem test_withFetchWord_at_top :
    (Tests.after (step (({ State.reset with pc := 0xFF } : State).withFetchWord 8 0x01))).halted = true := by decide

/-! ### Data movement and output (95_test_vectors.md 2.2, 2.3) -/

theorem test_ldi : (Tests.after (step (Tests.running Tests.regs 0x10 [0x82, 5, 0xFF]))).reg 5 = 255 ∧
    (Tests.after (step (Tests.running Tests.regs 0x10 [0x82, 5, 0xFF]))).pc = 0x13 := by decide
theorem test_ldi_moves_sp : (Tests.after (step (Tests.running Tests.regs 0 [0x82, 7, 0x80]))).sp = 0x80 := by decide
theorem test_ld : (Tests.after (step ((Tests.running (Tests.pair 0 0x20) 0 [0x83, 0, 1]).memWrite 0x20 0x99))).reg 0 = 0x99 := by
  decide
theorem test_ld_own_opcode : (Tests.after (step (Tests.running (Tests.pair 0 0x30) 0x30 [0x83, 0, 1]))).reg 0 = 0x83 := by
  decide
theorem test_st : (Tests.after (step (Tests.running (Tests.pair 0x40 0x7B) 0 [0x84, 0, 1]))).memRead 0x40 = 0x7B := by decide
theorem test_st_top_cell :
    (Tests.after (step (Tests.running #v[0, 0, 0xFF, 0, 0, 0, 0, 0xF4] 0 [0x84, 2, 2]))).memRead 0xFF = 0xFF := by decide
theorem test_prn : (Tests.after (step (Tests.running (Tests.pair 0 255) 0 [0x47, 1]))).outputs = [(.num, 255)] := by decide
theorem test_prn_sp : (Tests.after (step (Tests.running Tests.regs 0 [0x47, 7]))).outputs = [(.num, 244)] := by decide
theorem test_pra : (Tests.after (step (Tests.running (Tests.pair 0x41 0) 0 [0x48, 0]))).outputs = [(.chr, 65)] := by decide

/-! ### ALU (95_test_vectors.md 2.4) -/

theorem test_add : Tests.binary 0xA0 255 1 = 0 ∧ Tests.binary 0xA0 200 100 = 44 := by decide
theorem test_sub : Tests.binary 0xA1 3 5 = 254 ∧ Tests.binary 0xA1 0 255 = 1 := by decide
theorem test_mul : Tests.binary 0xA2 255 255 = 1 ∧ Tests.binary 0xA2 200 3 = 88 := by decide
theorem test_div : Tests.binary 0xA3 255 2 = 127 ∧ Tests.binary 0xA3 7 8 = 0 := by decide
theorem test_div_by_zero :
    Tests.after (step (Tests.running (Tests.pair 5 0) 6 [0xA3, 0, 1])) =
      { Tests.running (Tests.pair 5 0) 6 [0xA3, 0, 1] with
        halted := true, pc := 9, events := [.rpt ⟨.divideByZero, 6, 0xA3⟩] } := by decide
theorem test_mod : Tests.binary 0xA4 255 16 = 15 ∧ Tests.binary 0xA4 5 9 = 5 := by decide
theorem test_mod_by_zero :
    (Tests.after (step (Tests.running (Tests.pair 0 0) 6 [0xA4, 0, 1]))).reports = [⟨.divideByZero, 6, 0xA4⟩] := by decide
theorem test_and : Tests.binary 0xA8 0xCC 0xAA = 0x88 := by decide
theorem test_or : Tests.binary 0xAA 0xCC 0xAA = 0xEE := by decide
theorem test_xor : Tests.binary 0xAB 0xCC 0xAA = 0x66 := by decide
theorem test_shl : Tests.binary 0xAC 0x81 1 = 0x02 ∧ Tests.binary 0xAC 3 3 = 24 := by decide
theorem test_shl_large_amounts : Tests.binary 0xAC 0xFF 8 = 0 ∧ Tests.binary 0xAC 1 255 = 0 := by decide
theorem test_shr : Tests.binary 0xAD 0x81 1 = 0x40 ∧ Tests.binary 0xAD 0xFF 4 = 0x0F := by decide
theorem test_shr_large_amounts : Tests.binary 0xAD 0xFF 8 = 0 ∧ Tests.binary 0xAD 0xFF 9 = 0 := by decide
theorem test_not : Tests.unary 0x69 0x55 = 0xAA ∧ Tests.unary 0x69 0 = 0xFF := by decide
theorem test_inc : Tests.unary 0x65 255 = 0 ∧ Tests.unary 0x65 254 = 255 := by decide
theorem test_dec : Tests.unary 0x66 0 = 255 ∧ Tests.unary 0x66 128 = 127 := by decide
theorem test_same_register_130 :
    [0xA0, 0xA1, 0xA2, 0xA3, 0xA4, 0xA8, 0xAA, 0xAB, 0xAC, 0xAD].map (fun op : Byte =>
      (Tests.after (step (Tests.running #v[0, 0, 130, 0, 0, 0, 0, 0xF4] 0 [op, 2, 2]))).reg 2) =
      [4, 0, 4, 1, 0, 130, 130, 0, 0, 0] := by decide

/-! ### Compare and jumps (95_test_vectors.md 2.5, 2.6) -/

theorem test_cmp :
    [((5 : Byte), (5 : Byte)), (3, 5), (5, 3), (255, 1), (0, 128), (127, 128), (255, 255)].map (fun p =>
      (Tests.after (step (Tests.running (Tests.pair p.1 p.2) 0 [0xA7, 0, 1]))).fl) =
      [0x01, 0x04, 0x02, 0x02, 0x04, 0x04, 0x01] := by decide
theorem test_cmp_clears_all_of_fl :
    (Tests.after (step { Tests.running (Tests.pair 3 5) 0 [0xA7, 0, 1] with fl := 0xFF })).fl = 0x04 := by decide
theorem test_jmp : Tests.jumps 0x54 = [0x30, 0x30, 0x30, 0x30] := by decide
theorem test_jeq : Tests.jumps 0x55 = [0x12, 0x30, 0x12, 0x12] := by decide
theorem test_jne : Tests.jumps 0x56 = [0x30, 0x12, 0x30, 0x30] := by decide
theorem test_jgt : Tests.jumps 0x57 = [0x12, 0x12, 0x30, 0x12] := by decide
theorem test_jlt : Tests.jumps 0x58 = [0x12, 0x12, 0x12, 0x30] := by decide
theorem test_jle : Tests.jumps 0x59 = [0x12, 0x30, 0x12, 0x30] := by decide
theorem test_jge : Tests.jumps 0x5A = [0x12, 0x30, 0x30, 0x12] := by decide
theorem test_jmp_at_top : (Tests.after (step (Tests.running (Tests.pair 0x10 0) 0xFE [0x54, 0]))).pc = 0x10 ∧
    (Tests.after (step (Tests.running (Tests.pair 0x10 0) 0xFE [0x54, 0]))).faulted = none := by decide
theorem test_jeq_not_taken_at_top :
    (Tests.after (step { Tests.running Tests.regs 0xFE [0x55, 0] with fl := 0x04 })).faulted =
      some ⟨.addrRange, 0xFE, 0x55⟩ := by decide
theorem test_call :
    Tests.after (step (Tests.running (Tests.pair 0 0x0B) 6 [0x50, 1])) =
      { (Tests.running #v[0, 0x0B, 0, 0, 0, 0, 0, 0xF3] 6 [0x50, 1]).memWrite 0xF3 0x08 with pc := 0x0B } := by decide
theorem test_call_through_sp : (Tests.after (step (Tests.running Tests.regs 0 [0x50, 7]))).pc = 0xF3 := by decide
theorem test_ret :
    (Tests.after (step ((Tests.running #v[0, 0, 0, 0, 0, 0, 0, 0xFF] 0 [0x11]).memWrite 0xFF 0x33))).pc = 0x33 := by decide
theorem test_ret_wraps_sp :
    (Tests.after (step ((Tests.running #v[0, 0, 0, 0, 0, 0, 0, 0xFF] 0 [0x11]).memWrite 0xFF 0x33))).sp = 0x00 := by decide

/-! ### Stack (95_test_vectors.md 2.7) -/

theorem test_push_wraps_sp :
    (Tests.after (step (Tests.running #v[0x77, 0, 0, 0, 0, 0, 0, 0] 0 [0x45, 0]))).memRead 0xFF = 0x77 ∧
    (Tests.after (step (Tests.running #v[0x77, 0, 0, 0, 0, 0, 0, 0] 0 [0x45, 0]))).sp = 0xFF := by decide
theorem test_push_sp : (Tests.after (step (Tests.running Tests.regs 0 [0x45, 7]))).memRead 0xF3 = 0xF3 := by decide
theorem test_pop :
    (Tests.after (step ((Tests.running #v[0, 0, 0, 0, 0, 0, 0, 0xF3] 0 [0x46, 1]).memWrite 0xF3 200))).regs =
      #v[0, 200, 0, 0, 0, 0, 0, 0xF4] := by decide
theorem test_pop_sp :
    (Tests.after (step ((Tests.running #v[0, 0, 0, 0, 0, 0, 0, 0xF3] 0 [0x46, 7]).memWrite 0xF3 0x20))).sp = 0x21 := by decide

/-! ### System (95_test_vectors.md 2.8) -/

theorem test_hlt : (Tests.after (step (Tests.running Tests.regs 0x0D [0x01]))).halted = true ∧
    (Tests.after (step (Tests.running Tests.regs 0x0D [0x01]))).reports = [] := by decide
theorem test_hlt_at_top : (Tests.after (step (Tests.running Tests.regs 0xFF [0x01]))).faulted = none ∧
    (Tests.after (step (Tests.running Tests.regs 0xFF [0x01]))).halted = true := by decide
theorem test_nop :
    Tests.after (step (Tests.running Tests.regs 5 [0x00])) = { Tests.running Tests.regs 5 [0x00] with pc := 6 } := by decide
theorem test_int_unchecked_operand :
    Tests.after (step (Tests.running Tests.regs 0 [0x52, 9])) =
      { Tests.running Tests.regs 0 [0x52, 9] with
        faulted := some ⟨.placeholder, 0, 0x52⟩, events := [.rpt ⟨.placeholder, 0, 0x52⟩] } := by decide
theorem test_iret :
    Tests.after (step (Tests.running Tests.regs 0x22 [0x13])) =
      { Tests.running Tests.regs 0x22 [0x13] with
        faulted := some ⟨.placeholder, 0x22, 0x13⟩, events := [.rpt ⟨.placeholder, 0x22, 0x13⟩] } := by decide
theorem test_unrecognised :
    Tests.after (step (Tests.running Tests.regs 6 [0xC0, 0xAA, 0xBB, 0xCC])) =
      { Tests.running Tests.regs 6 [0xC0, 0xAA, 0xBB, 0xCC] with
        pc := 0x0A, events := [.rpt ⟨.unrecognised, 6, 0xC0⟩] } := by decide
theorem test_unrecognised_with_bit4_set :
    (Tests.after (step (Tests.running Tests.regs 4 [0x5B, 0]))).pc = 6 := by decide

/-! ### Conditions and their priority (95_test_vectors.md 2.9) -/

theorem test_index_fault_in_a :
    Tests.after (step (Tests.running Tests.regs 0 [0x82, 8, 5])) =
      { Tests.running Tests.regs 0 [0x82, 8, 5] with
        faulted := some ⟨.regIndex, 0, 8⟩, events := [.rpt ⟨.regIndex, 0, 8⟩] } := by decide
theorem test_index_fault_priority :
    [[0xA0, 1, 9], [0xA0, 8, 9], [0xA3, 8, 0], [0x45, 8], [0x55, 8]].map (fun bytes : List Byte =>
      (Tests.after (step (Tests.running Tests.regs 0 bytes))).faulted) =
      [9, 8, 8, 8, 8].map (fun v : Byte => some ⟨.regIndex, 0, v⟩) := by decide
theorem test_operand_beyond_memory :
    Tests.after (step (Tests.running Tests.regs 0xFE [0x82, 0])) =
      { Tests.running Tests.regs 0xFE [0x82, 0] with
        faulted := some ⟨.addrRange, 0xFE, 0x82⟩, events := [.rpt ⟨.addrRange, 0xFE, 0x82⟩] } := by decide
theorem test_unrecognised_too_close_to_top :
    (Tests.after (step (Tests.running Tests.regs 0xFD [0xC0, 0, 0]))).reports = [⟨.addrRange, 0xFD, 0xC0⟩] := by decide
theorem test_unrecognised_ending_at_top :
    (Tests.after (step (Tests.running Tests.regs 0xFC [0xC0, 0, 0, 0]))).reports =
      [⟨.unrecognised, 0xFC, 0xC0⟩, ⟨.addrRange, 0xFC, 0xC0⟩] := by decide
theorem test_successor_beyond_memory_keeps_effects :
    Tests.after (step (Tests.running (Tests.pair 9 0) 0xFE [0x65, 0])) =
      { Tests.running (Tests.pair 10 0) 0xFE [0x65, 0] with
        pc := 0, faulted := some ⟨.addrRange, 0xFE, 0x65⟩, events := [.rpt ⟨.addrRange, 0xFE, 0x65⟩] } := by decide
theorem test_zero_divisor_at_top :
    Tests.after (step (Tests.running (Tests.pair 5 0) 0xFD [0xA3, 0, 1])) =
      { Tests.running (Tests.pair 5 0) 0xFD [0xA3, 0, 1] with
        pc := 0, halted := true, events := [.rpt ⟨.divideByZero, 0xFD, 0xA3⟩] } := by decide
theorem test_call_without_return_address :
    Tests.after (step (Tests.running (Tests.pair 0 0x20) 0xFE [0x50, 1])) =
      { Tests.running (Tests.pair 0 0x20) 0xFE [0x50, 1] with
        faulted := some ⟨.addrRange, 0xFE, 0x50⟩, events := [.rpt ⟨.addrRange, 0xFE, 0x50⟩] } := by decide
theorem test_no_step_after_the_end :
    step { Tests.running Tests.regs 0 [0x00] with halted := true } =
      .next { Tests.running Tests.regs 0 [0x00] with halted := true } := rfl

/-! ### Loader, bus and ports (20_memory.md R67, R52; 10_state.md R40; 60_exceptions.md R236, R238) -/

theorem test_loader_refuses : (startOfRun [256]).isNone = true ∧ (startOfRun (List.replicate 257 0)).isNone = true := by
  decide +kernel
theorem test_loader_accepts_full_image : (startOfRun (List.replicate 256 255)).isSome = true := by decide +kernel
theorem test_bus_of_push :
    stepAccesses (Tests.running (Tests.pair 200 0) 0 [0x45, 0]) =
      [.read 0 0x45, .read 1 0, .write 0xF3 200] := by decide
theorem test_bus_reads_no_undeclared_byte :
    stepAccesses (Tests.running Tests.regs 0xFF [0x01]) = [.read 0xFF 0x01] ∧
    stepAccesses (Tests.running Tests.regs 0 [0xC0, 1, 2, 3]) = [.read 0 0xC0, .read 1 1, .read 2 2] := by decide
theorem test_ports :
    (Event.rpt ⟨.placeholder, 0, 0x52⟩).rptBeat? = some ⟨5, 0, 0x52⟩ ∧ (Event.out .chr 65).outBeat? = some ⟨1, 65⟩ := by decide
theorem test_tick_holds_without_run : tick false false State.reset = .next State.reset := rfl
theorem test_trace : (Tests.running Tests.regs 0xFE [0x47, 2]).trace = ⟨0x47, 2, 0, Tests.regs⟩ := by decide

/-! ### Witnesses: the hypotheses of the statements can be met -/

/-- The boundary values of a register-index operand: 0 and 7 legal, 8 and 255 not. -/
def Tests.IndexHyps : Prop :=
  (0 : Byte).toNat < 8 ∧ (7 : Byte).toNat < 8 ∧ 7 < (8 : Byte).toNat ∧ 7 < (255 : Byte).toNat

theorem Tests.indexHyps : Tests.IndexHyps := by unfold Tests.IndexHyps; decide

/-- A running state whose opcode byte `op` stands at address `pc`. -/
def Tests.opAt (op pc : Byte) : State := Tests.running Tests.regs pc [op]

/-- The premises of `TopClause op n`, met at the lowest address where they can be. -/
def Tests.TopHyps (op : Byte) (n : Nat) : Prop :=
  let s := Tests.opAt op (BitVec.ofNat 8 (256 - n))
  s.stopped = false ∧ s.opcodeByte = op ∧ 255 < s.pc.toNat + n

theorem witness_LoadImmediateSetsRegister : Tests.IndexHyps ∧ Tests.TopHyps 0x82 2 :=
  ⟨Tests.indexHyps, by unfold Tests.TopHyps; decide⟩
theorem witness_LoadReadsAddressedCell : Tests.IndexHyps ∧ Tests.TopHyps 0x83 2 :=
  ⟨Tests.indexHyps, by unfold Tests.TopHyps; decide⟩
theorem witness_StoreWritesAddressedCell : Tests.IndexHyps ∧ Tests.TopHyps 0x84 2 :=
  ⟨Tests.indexHyps, by unfold Tests.TopHyps; decide⟩
theorem witness_PrintNumberEmitsRegister : Tests.IndexHyps ∧ Tests.TopHyps 0x47 1 :=
  ⟨Tests.indexHyps, by unfold Tests.TopHyps; decide⟩
theorem witness_PrintCharacterEmitsRegister : Tests.IndexHyps ∧ Tests.TopHyps 0x48 1 :=
  ⟨Tests.indexHyps, by unfold Tests.TopHyps; decide⟩
theorem witness_AddWritesWrappedSum : Tests.IndexHyps ∧ Tests.TopHyps 0xA0 2 :=
  ⟨Tests.indexHyps, by unfold Tests.TopHyps; decide⟩
theorem witness_SubWritesWrappedDifference : Tests.IndexHyps ∧ Tests.TopHyps 0xA1 2 :=
  ⟨Tests.indexHyps, by unfold Tests.TopHyps; decide⟩
theorem witness_MulWritesLowByteOfProduct : Tests.IndexHyps ∧ Tests.TopHyps 0xA2 2 :=
  ⟨Tests.indexHyps, by unfold Tests.TopHyps; decide⟩
theorem witness_DivideAndRemainderOrHalt : Tests.IndexHyps ∧ Tests.TopHyps 0xA3 2 ∧ Tests.TopHyps 0xA4 2 :=
  ⟨Tests.indexHyps, by unfold Tests.TopHyps; decide, by unfold Tests.TopHyps; decide⟩
theorem witness_AndWritesBitwiseAnd : Tests.IndexHyps ∧ Tests.TopHyps 0xA8 2 :=
  ⟨Tests.indexHyps, by unfold Tests.TopHyps; decide⟩
theorem witness_OrWritesBitwiseOr : Tests.IndexHyps ∧ Tests.TopHyps 0xAA 2 :=
  ⟨Tests.indexHyps, by unfold Tests.TopHyps; decide⟩
theorem witness_XorWritesBitwiseExclusiveOr : Tests.IndexHyps ∧ Tests.TopHyps 0xAB 2 :=
  ⟨Tests.indexHyps, by unfold Tests.TopHyps; decide⟩
theorem witness_NotWritesComplement : Tests.IndexHyps ∧ Tests.TopHyps 0x69 1 :=
  ⟨Tests.indexHyps, by unfold Tests.TopHyps; decide⟩
theorem witness_ShlShiftsByWholeAmount : Tests.IndexHyps ∧ Tests.TopHyps 0xAC 2 :=
  ⟨Tests.indexHyps, by unfold Tests.TopHyps; decide⟩
theorem witness_ShrShiftsInZeros : Tests.IndexHyps ∧ Tests.TopHyps 0xAD 2 :=
  ⟨Tests.indexHyps, by unfold Tests.TopHyps; decide⟩
theorem witness_IncAddsOneWrapping : Tests.IndexHyps ∧ Tests.TopHyps 0x65 1 :=
  ⟨Tests.indexHyps, by unfold Tests.TopHyps; decide⟩
theorem witness_DecSubtractsOneWrapping : Tests.IndexHyps ∧ Tests.TopHyps 0x66 1 :=
  ⟨Tests.indexHyps, by unfold Tests.TopHyps; decide⟩
theorem witness_CompareSetsOneOutcomeFlag : Tests.IndexHyps ∧ Tests.TopHyps 0xA7 2 :=
  ⟨Tests.indexHyps, by unfold Tests.TopHyps; decide⟩
theorem witness_JumpGoesToRegister : Tests.IndexHyps ∧ Tests.TopHyps 0x54 1 :=
  ⟨Tests.indexHyps, by unfold Tests.TopHyps; decide⟩
theorem witness_JumpIfEqual : Tests.IndexHyps ∧ Tests.TopHyps 0x55 1 :=
  ⟨Tests.indexHyps, by unfold Tests.TopHyps; decide⟩
theorem witness_JumpIfNotEqual : Tests.IndexHyps ∧ Tests.TopHyps 0x56 1 :=
  ⟨Tests.indexHyps, by unfold Tests.TopHyps; decide⟩
theorem witness_OrderedJumpsTestTheirFlags : Tests.IndexHyps ∧ Tests.TopHyps 0x57 1 ∧ Tests.TopHyps 0x58 1 ∧ Tests.TopHyps 0x5A 1 ∧ Tests.TopHyps 0x59 1 :=
  ⟨Tests.indexHyps, by unfold Tests.TopHyps; decide, by unfold Tests.TopHyps; decide, by unfold Tests.TopHyps; decide, by unfold Tests.TopHyps; decide⟩
theorem witness_CallPushesReturnAddress : Tests.IndexHyps ∧ Tests.TopHyps 0x50 1 :=
  ⟨Tests.indexHyps, by unfold Tests.TopHyps; decide⟩
theorem witness_PushWritesBelowStackPointer : Tests.IndexHyps ∧ Tests.TopHyps 0x45 1 :=
  ⟨Tests.indexHyps, by unfold Tests.TopHyps; decide⟩
theorem witness_PopReadsThenRaisesStackPointer : Tests.IndexHyps ∧ Tests.TopHyps 0x46 1 :=
  ⟨Tests.indexHyps, by unfold Tests.TopHyps; decide⟩
theorem witness_PlaceholdersFail : Tests.TopHyps 0x52 1 := by unfold Tests.TopHyps; decide

/-- An unrecognised byte that just fits at the top, and one that just does not. -/
theorem witness_UnrecognisedByteIsSkipped :
    (∀ i : Instr, i.opcode ≠ (0xC0 : Byte)) ∧
    (let s := Tests.opAt 0xC0 0xFC
     s.stopped = false ∧ s.opcodeByte = 0xC0 ∧ s.pc.toNat + s.opcodeByte.toNat / 64 ≤ 255) ∧
    (let s := Tests.opAt 0xC0 0xFD
     s.stopped = false ∧ s.opcodeByte = 0xC0 ∧ 255 < s.pc.toNat + s.opcodeByte.toNat / 64) :=
  ⟨fun i => by cases i <;> simp [Instr.opcode, Config.opcodes], by decide, by decide⟩

/-- The last place where a three-byte instruction fits. -/
theorem witness_StepRunsInstructionAtPc :
    let s := Tests.running Tests.regs 0xFD [0xA0, 0, 1]
    let i : Instr := .add 0 1
    s.stopped = false ∧ s.pc.toNat + (encode i).length ≤ 256 ∧ fetch s = .instr i [] ∧
      ∀ k, k < (encode i).length → s.mem.read (s.pc.toNat + k) = (encode i).getD k 0 := by decide

theorem witness_FinishedRunNeverChanges :
    ({ State.reset with halted := true } : State).stopped = true ∧
    ({ State.reset with faulted := some ⟨.regIndex, 0, 8⟩ } : State).stopped = true := by decide

/-- CMP changes `FL` through exec and through step; ADD neither reads nor writes it. -/
theorem witness_FlagsWrittenByCompareReadByJumps :
    (∃ t, exec (.cmp 0 7) State.reset = .next t ∧ t.fl ≠ State.reset.fl) ∧
    (∃ t, step (Tests.running Tests.regs 0 [0xA7, 0, 7]) = .next t ∧ t.fl ≠ (0 : Byte)) ∧
    ((0 : Byte).toNat < 8 ∧ (7 : Byte).toNat < 8) ∧
    (readsFlags (.add 0 1) = false ∧ (∀ a b, Instr.add 0 1 ≠ .cmp a b) ∧ ∃ t, exec (.add 0 1) State.reset = .next t) :=
  ⟨⟨_, rfl, by decide⟩, ⟨_, rfl, by decide⟩, by decide, rfl, nofun, _, rfl⟩

/-- HLT and a zero divisor set `Halted`; a halted state keeps it. -/
theorem witness_HaltedOnlyByHaltOrZeroDivisor :
    (∃ t, step (Tests.running Tests.regs 0 [0x01]) = .next t ∧ t.halted = true) ∧
    (∃ t, step (Tests.running (Tests.pair 5 0) 0 [0xA4, 0, 1]) = .next t ∧ t.halted = true) ∧
    (Tests.running Tests.regs 0 [0x01]).halted = false ∧
    (∃ t, step { State.reset with halted := true } = .next t ∧ ({ State.reset with halted := true } : State).halted = true) :=
  ⟨⟨_, rfl, by decide⟩, ⟨_, rfl, by decide⟩, rfl, _, rfl, rfl⟩

/-- A step that appends two events, and an illegal index whose report is in the list. -/
theorem witness_StepAppendsAtMostTwoEvents :
    (∃ t, step (Tests.opAt 0xC0 0xFC) = .next t ∧ t.events.length = 2) ∧
    (∃ t, step (Tests.running Tests.regs 3 [0x45, 8]) = .next t ∧ Event.rpt ⟨.regIndex, 3, 8⟩ ∈ t.events) :=
  ⟨⟨_, rfl, by decide⟩, _, rfl, by decide⟩

theorem witness_OutputOnlyByPrintInstructions :
    (∃ t, step (Tests.running Tests.regs 0 [0x47, 7]) = .next t) ∧ (∃ t, step (Tests.running Tests.regs 0 [0x48, 8]) = .next t) ∧
    (Tests.running Tests.regs 0 [0x47, 7]).stopped = false ∧ (Tests.running Tests.regs 0 [0x48, 8]).stopped = false :=
  ⟨⟨_, rfl⟩, ⟨_, rfl⟩, rfl, rfl⟩

/-- The fault `r` is what a step from the running state `s` sets. -/
def Tests.FaultsWith (s : State) (r : Report) : Prop := s.stopped = false ∧ ∃ t, step s = .next t ∧ t.faulted = some r

/-- An illegal index, an operand byte above 255, a CALL without a return address; then the successor fault of an instruction
that changes a register and of an unrecognised byte. -/
theorem witness_FaultsArePrecise :
    Tests.FaultsWith (Tests.running Tests.regs 0 [0x45, 8]) ⟨.regIndex, 0, 8⟩ ∧
    Tests.FaultsWith (Tests.opAt 0x82 0xFE) ⟨.addrRange, 0xFE, 0x82⟩ ∧
    Tests.FaultsWith (Tests.running Tests.regs 0xFE [0x50, 1]) ⟨.addrRange, 0xFE, 0x50⟩ ∧
    Tests.FaultsWith (Tests.running Tests.regs 0xFE [0x65, 1]) ⟨.addrRange, 0xFE, 0x65⟩ ∧
    Tests.FaultsWith (Tests.opAt 0xC0 0xFC) ⟨.addrRange, 0xFC, 0xC0⟩ :=
  ⟨⟨rfl, _, rfl, by decide⟩, ⟨rfl, _, rfl, by decide⟩, ⟨rfl, _, rfl, by decide⟩, ⟨rfl, _, rfl, by decide⟩,
    ⟨rfl, _, rfl, by decide⟩⟩

theorem Tests.running_inv : (Tests.running Tests.regs 0xFD [0xA3, 1, 0]).Inv := ⟨by decide, by decide, by decide, by decide⟩

/-- One run of each outcome ends from a state that meets the invariant. -/
theorem witness_RunEndsInOneOfThreeWays :
    (Tests.opAt 0x01 0xFF).Inv ∧ (∃ t, step (Tests.opAt 0x01 0xFF) = .next t ∧ t.endOfRun = some .normalHalt) ∧
    (Tests.running Tests.regs 0xFD [0xA3, 1, 0]).Inv ∧
    (∃ t, step (Tests.running Tests.regs 0xFD [0xA3, 1, 0]) = .next t ∧ t.endOfRun = some .divisionByZeroHalt) ∧
    (Tests.opAt 0x13 0).Inv ∧ (∃ t, step (Tests.opAt 0x13 0) = .next t ∧ t.endOfRun = some .failedRun) :=
  ⟨⟨by decide, by decide, by decide, by decide⟩, ⟨_, rfl, by decide⟩, Tests.running_inv, ⟨_, rfl, by decide⟩,
    ⟨by decide, by decide, by decide, by decide⟩, _, rfl, by decide⟩

theorem witness_StepKeepsInvariant :
    (Tests.running Tests.regs 0xFD [0xA3, 1, 0]).Inv ∧ ∃ t, step (Tests.running Tests.regs 0xFD [0xA3, 1, 0]) = .next t :=
  ⟨Tests.running_inv, _, rfl⟩

theorem witness_EveryRunKeepsInvariant :
    ∃ s t, startOfRun [0x82, 0, 8, 0x01] = some s ∧ Sys2Proof.core.run 2 s = .next t := ⟨_, _, rfl, rfl⟩

theorem witness_DecodeReadsBackEncode :
    encode (.ldi 7 255) ++ [9] = 0x82 :: [7, 255, 9] ∧ encode .ret ++ [] = 0x11 :: [] := by decide

theorem witness_EncodeReadsBackDecode :
    decode 0x82 [7, 255, 9] = .instr (.ldi 7 255) [9] ∧ decode 0x11 [] = .instr .ret [] := by decide

theorem witness_LengthFromTopBits :
    decode 0x82 [7, 255, 9] = .instr (.ldi 7 255) [9] ∧ decode 0xFF [1, 2, 3] = .unrecognised 0xFF [] := by decide

/-- A well-formed instruction with bit 4 clear runs; each condition of a jump is false in some state. -/
theorem witness_SetsPcBitMarksControlTransfer :
    (setsPcBit (Instr.pop 7).opcode = false ∧ (Instr.pop 7).wellFormed = true ∧ ∃ t, exec (.pop 7) State.reset = .next t) ∧
    (7 : Byte).toNat < 8 ∧ State.reset.flagE = false ∧ State.reset.flagG = false ∧ State.reset.flagL = false ∧
    ({ State.reset with fl := 0x01 } : State).flagE = true :=
  ⟨⟨rfl, by decide, _, rfl⟩, by decide, rfl, rfl, rfl, by decide⟩

theorem witness_MemoryReadAfterWrite : (Tests.running Tests.regs 0xFE [0x65, 7]).mem.wf = true := by decide

theorem witness_PushPopRoundTrip :
    (0 : Byte).toNat < 8 ∧ (0 : Byte).toNat ≠ 7 ∧ (6 : Byte).toNat < 8 ∧ (6 : Byte).toNat ≠ 7 ∧
    (Tests.running Tests.regs 0xFE [0x65, 7]).mem.wf = true := by decide

theorem witness_ReturnUndoesCall :
    (7 : Byte).toNat < 8 ∧ (Tests.opAt 0x50 0xFD).mem.wf = true ∧ (Tests.opAt 0x50 0xFD).pc.toNat + 2 ≤ 255 := by decide

/-- `i` completes from `s`, whose memory is canonical, to a state where `pc` is `pc`, the opcode byte `op` and the operand
bytes `operands`. -/
def Tests.NextFetch (i : Instr) (s : State) (pc op : Byte) (operands : List Byte) : Prop :=
  s.mem.wf = true ∧ ∃ t, exec i s = .next t ∧ t.pc = pc ∧ t.opcodeByte = op ∧ t.operandBytes = operands

/-- ST into the next opcode byte, ST into the immediate of the next LDI (95_test_vectors.md program P6), and PUSH and CALL
into an opcode byte and into an operand byte of the instruction fetched next. The last CALL is the highest with a return
address. -/
theorem witness_StoreSeenByNextFetch :
    Tests.NextFetch (.st 0 1) (Tests.running (Tests.pair 0x13 0x01) 0x10 [0x84, 0, 1]) 0x13 0x01 [] ∧
    Tests.NextFetch (.st 0 1) (Tests.running (Tests.pair 0x0B 42) 0x06 [0x84, 0, 1, 0x82, 2, 0]) 0x09 0x82 [2, 42] ∧
    Tests.NextFetch (.push 0) (Tests.running (Tests.pair 0x01 0) 0xF1 [0x45, 0, 0]) 0xF3 0x01 [] ∧
    Tests.NextFetch (.push 0) (Tests.running (Tests.pair 0x05 0) 0xF0 [0x45, 0, 0x65, 0]) 0xF2 0x65 [0x05] ∧
    Tests.NextFetch (.call 0) (Tests.running (Tests.pair 0xF3 0) 0xFD [0x50, 0]) 0xF3 0xFF [0, 0, 0] ∧
    Tests.NextFetch (.call 0) ((Tests.running (Tests.pair 0xF2 0) 0xFD [0x50, 0]).memWrite 0xF2 0x52) 0xF2 0x52 [0xFF] :=
  ⟨⟨by decide, _, rfl, by decide⟩, ⟨by decide, _, rfl, by decide⟩, ⟨by decide, _, rfl, by decide⟩,
    ⟨by decide, _, rfl, by decide⟩, ⟨by decide, _, rfl, by decide⟩, ⟨by decide, _, rfl, by decide⟩⟩

theorem witness_CompareThenJumpFollowsOrder : (0 : Byte).toNat < 8 ∧ (7 : Byte).toNat < 8 := by decide

/-- A step that stores. -/
theorem witness_BusWritesAreTheOnlyMemoryChanges :
    ∃ t, step (Tests.running Tests.regs 0 [0x45, 7]) = .next t ∧ t.mem ≠ (Tests.running Tests.regs 0 [0x45, 7]).mem :=
  ⟨_, rfl, by decide⟩

theorem witness_LoaderPlacesImage :
    (startOfRun []).isSome = true ∧ ∃ s, startOfRun [0x01, 255] = some s ∧ s.opcodeByte = 0x01 ∧ s.mem.read 1 = 255 :=
  ⟨rfl, _, rfl, by decide, by decide⟩

theorem witness_RegisterResultFrame :
    (∃ t, exec (.ldi 7 255) State.reset = .next t) ∧ (∃ t, exec (.div 0 7) State.reset = .next t) ∧
    (∃ t, exec (.mod 0 1) State.reset = .next t ∧ t.halted = true) := ⟨⟨_, rfl⟩, ⟨_, rfl⟩, _, rfl, by decide⟩

theorem witness_NoRegisterNoMemoryFrame :
    (∃ t, exec (.cmp 0 7) State.reset = .next t) ∧ (∃ t, exec (.prn 8) State.reset = .next t) ∧
    (∃ t, exec .hlt State.reset = .next t) := ⟨⟨_, rfl⟩, ⟨_, rfl⟩, _, rfl⟩

/-- ST, PUSH and CALL store; with an illegal index, or at 0xFE, they store nothing. -/
theorem witness_StoringFrame :
    (∃ t, exec (.st 0 7) State.reset = .next t) ∧ ridx 0 = some 0 ∧ ridx 8 = none ∧
    (∃ t, exec (.push 7) State.reset = .next t) ∧ (∃ t, exec (.call 0) (Tests.opAt 0x50 0xFE) = .next t) ∧
    255 < (Tests.opAt 0x50 0xFE).pc.toNat + 2 :=
  ⟨⟨_, rfl⟩, by decide, by decide, ⟨_, rfl⟩, ⟨_, rfl⟩, by decide⟩

theorem witness_PoppingFrame :
    (∃ t, exec (.pop 7) State.reset = .next t) ∧ (∃ t, exec (.pop 8) State.reset = .next t) ∧ ridx 8 = none ∧
    (∃ t, exec .ret State.reset = .next t) := ⟨⟨_, rfl⟩, ⟨_, rfl⟩, by decide, _, rfl⟩
end

section
/-!
10_state.md R31: who writes `FL` and who reads it. `ExecGives_fl` says what an instruction can leave in `FL`; `exec_setFl` says
that an instruction that does not use `FL` runs the same from every value of it and passes that value through.
-/
namespace Sys2Proof.Machine

variable {i : Instr} {s t : State}

/-! ### Writing `FL` -/

/-- An instruction keeps `FL`, or it is CMP. -/
theorem ExecGives_fl (h : ExecGives i s t) : t.fl = s.fl ∨ ∃ a b, i = .cmp a b := by
  rcases h with ⟨v, -, -, rfl⟩ | ⟨u, hu, rfl⟩ | hc
  · exact .inl (s.regIndexOut_fl v)
  · rcases EffectGives_fl hu with hfl | ⟨a, b, -, -, hi, -⟩
    · exact .inl ((u.advance_fl i.opcode).trans hfl)
    · exact .inr ⟨a, b, hi⟩
  · exact .inl (ControlGives_fl_halted hc).1

/-- A step keeps `FL`, or it runs CMP. -/
theorem step_fl (h : step s = .next t) : t.fl = s.fl ∨ ∃ a b rest, fetch s = .instr (.cmp a b) rest := by
  cases hs : s.stopped with
  | true =>
    have hover : step s = runOver s := if_pos hs
    rw [hover] at h
    cases h
    exact .inl rfl
  | false =>
    rcases step_gives hs h with ⟨-, rfl⟩ | ⟨i, rest, hf, hg⟩ | ⟨rest, -, rfl⟩
    · exact .inl rfl
    · rcases ExecGives_fl hg with hfl | ⟨a, b, rfl⟩
      · exact .inl hfl
      · exact .inr ⟨a, b, rest, hf⟩
    · exact .inl (by rw [State.advance_fl, State.report_fl])

/-- CMP on legal indices writes all of `FL` and advances. -/
theorem exec_cmp_legal {a b : Byte} (ha : a.toNat < 8) (hb : b.toNat < 8) (s : State) :
    exec (.cmp a b) s =
      .next ((s.setFl (compareFlags (s.reg ⟨a.toNat, ha⟩) (s.reg ⟨b.toNat, hb⟩))).advance (Instr.cmp a b).opcode) :=
  withRegs_legal ha hb s _

/-- A comparison leaves exactly one outcome bit, the rest clear (43_compare.md R160). -/
theorem compareFlags_outcome (u v : Byte) :
    compareFlags u v = flEqual ∨ compareFlags u v = flGreater ∨ compareFlags u v = flLess := by
  rcases compareFlags_cases u v with ⟨-, e⟩ | ⟨-, e⟩ | ⟨-, e⟩
  · exact .inl e
  · exact .inr (.inr e)
  · exact .inr (.inl e)

/-! ### Running with another value in `FL` -/

/-- The outcome with `f` in `FL` of the next state, if there is one. -/
def resultSetFl (f : FlWord) : Result → Result
  | .next t => .next (t.setFl f)
  | .fault r => .fault r
  | .refused r => .refused r

/-- The advance neither reads nor writes `FL`. -/
theorem State.advance_setFl (s : State) (f : FlWord) (op : Byte) : (s.setFl f).advance op = (s.advance op).setFl f := by
  by_cases h : s.pc.toNat + opLength op < 256 ∨ s.halted = true
  · rw [State.advance_quiet s op h, State.advance_quiet (s.setFl f) op h]
    rfl
  · have hpast : 255 < s.pc.toNat + opLength op := by omega
    have hrun : s.halted = false := by simpa using fun e => h (.inr e)
    rw [State.advance_past s op hpast hrun, State.advance_past (s.setFl f) op hpast hrun]
    rfl

/-- An advance is the same with `f` in `FL`, as the outcome of an instruction. -/
theorem next_advance_setFl (s : State) (f : FlWord) (op : Byte) :
    (.next ((s.setFl f).advance op) : Result) = resultSetFl f (.next (s.advance op)) :=
  congrArg Host.Outcome.next (s.advance_setFl f op)

/-- The operand check does not look at `FL`: what follows it decides. -/
theorem withReg_setFl {f : FlWord} {a : Byte} {k k' : Reg → Result} (hk : ∀ r, k' r = resultSetFl f (k r)) :
    withReg a (s.setFl f) k' = resultSetFl f (withReg a s k) := by
  unfold withReg
  cases ridx a with
  | some r => exact hk r
  | none => rfl

theorem withRegs_setFl {f : FlWord} {a b : Byte} {k k' : Reg → Reg → Result}
    (hk : ∀ p q, k' p q = resultSetFl f (k p q)) :
    withRegs a b (s.setFl f) k' = resultSetFl f (withRegs a b s k) :=
  withReg_setFl fun p => withReg_setFl (hk p)

theorem aluBinary_setFl (op : Byte) (g : Byte → Byte → Byte) (a b : Byte) (s : State) (f : FlWord) :
    aluBinary op g a b (s.setFl f) = resultSetFl f (aluBinary op g a b s) :=
  withRegs_setFl fun d r => next_advance_setFl (s.setReg d (g (s.reg d) (s.reg r))) f op

theorem aluUnary_setFl (op : Byte) (g : Byte → Byte) (a : Byte) (s : State) (f : FlWord) :
    aluUnary op g a (s.setFl f) = resultSetFl f (aluUnary op g a s) :=
  withReg_setFl fun d => next_advance_setFl (s.setReg d (g (s.reg d))) f op

theorem aluDivide_setFl (op : Byte) (g : Byte → Byte → Byte) (a b : Byte) (s : State) (f : FlWord) :
    aluDivide op g a b (s.setFl f) = resultSetFl f (aluDivide op g a b s) := by
  refine withRegs_setFl fun d r => ?_
  rw [State.reg_setFl]
  split
  · exact next_advance_setFl { s.report ⟨.divideByZero, s.pc, op⟩ with halted := true } f op
  · exact next_advance_setFl (s.setReg d (g (s.reg d) (s.reg r))) f op

theorem execCall_setFl (a : Byte) (s : State) (f : FlWord) :
    execCall a (s.setFl f) = resultSetFl f (execCall a s) := by
  refine withReg_setFl fun r => ?_
  dsimp only [State.setFl_pc]
  split
  · rfl
  · rfl

theorem execPush_setFl (a : Byte) (s : State) (f : FlWord) :
    execPush a (s.setFl f) = resultSetFl f (execPush a s) :=
  withReg_setFl fun r =>
    let u := s.setSp s.pushAddr
    next_advance_setFl (u.memWrite u.sp (u.reg r)) f _

theorem execPop_setFl (a : Byte) (s : State) (f : FlWord) :
    execPop a (s.setFl f) = resultSetFl f (execPop a s) :=
  withReg_setFl fun d =>
    let u := s.setReg d (s.memRead s.sp)
    next_advance_setFl (u.setSp u.popSp) f _

/-- 10_state.md R31: an instruction that is neither CMP nor a conditional jump does the same from every value of `FL` and
passes it through. -/
theorem exec_setFl (hread : readsFlags i = false) (hcmp : ∀ a b, i ≠ .cmp a b) (s : State) (f : FlWord) :
    exec i (s.setFl f) = resultSetFl f (exec i s) := by
  cases i with
  | cmp a b => exact absurd rfl (hcmp a b)
  | jeq | jne | jgt | jlt | jle | jge => cases hread
  | nop => exact next_advance_setFl s f _
  | hlt => exact next_advance_setFl { s with halted := true } f _
  | ret | iret | int => rfl
  | jmp => exact withReg_setFl fun _ => rfl
  | call a => exact execCall_setFl a s f
  | push a => exact execPush_setFl a s f
  | pop a => exact execPop_setFl a s f
  | prn | pra => exact withReg_setFl fun _ => next_advance_setFl (State.emit s _ _) f _
  | ldi => exact withReg_setFl fun _ => next_advance_setFl (State.setReg s _ _) f _
  | ld => exact withRegs_setFl fun _ _ => next_advance_setFl (State.setReg s _ _) f _
  | st => exact withRegs_setFl fun _ _ => next_advance_setFl (State.memWrite s _ _) f _
  | inc a | dec a | not a => exact aluUnary_setFl _ _ a s f
  | div a b | mod a b => exact aluDivide_setFl _ _ a b s f
  | add a b | sub a b | mul a b | and a b | or a b | xor a b | shl a b | shr a b => exact aluBinary_setFl _ _ a b s f

/-- Settles O34: the writing clauses are the inversions of exec and step, CMP's are its one next state, and the reading clause
is that every other instruction commutes with a change of `FL`. -/
theorem flagsWrittenByCompareReadByJumps : Obligations.FlagsWrittenByCompareReadByJumps := by
  refine ⟨?execWrites, ?stepWrites, ?cmpIgnores, ?cmpOutcome, ?othersIgnore⟩
  case execWrites =>
    intro i s t h hne
    exact (ExecGives_fl (exec_inv h)).resolve_left hne
  case stepWrites =>
    intro s t h hne
    exact (step_fl h).resolve_left hne
  case cmpIgnores =>
    intro a b s f ha hb
    rw [exec_cmp_legal ha hb, exec_cmp_legal ha hb]
    rfl
  case cmpOutcome =>
    intro a b s t ha hb h
    rw [exec_cmp_legal ha hb] at h
    cases h
    rw [State.advance_fl, State.setFl_fl]
    exact compareFlags_outcome _ _
  case othersIgnore =>
    intro i s t f hread hcmp h
    calc exec i (s.setFl f) = resultSetFl f (exec i s) := exec_setFl hread hcmp s f
      _ = .next (t.setFl f) := by rw [h]; rfl

end Sys2Proof.Machine
end

section
/-!
30_encoding.md R81: lengths. An instruction has as many operand bytes as its opcode's two top bits say, and the decoder leaves
exactly the bytes past them, for an instruction and for an unrecognised byte alike.
-/
namespace Sys2Proof

open Laws

/-- The operand count is a plain shift of the opcode's number. -/
theorem operandCount_eq_shiftRight (op : Byte) : operandCount op = op.toNat >>> 6 := BitVec.toNat_ushiftRight op 6

/-- Every instruction has as many operand bytes as its opcode declares: the laws per constructor, as one fact. -/
theorem Instr.operands_length : ∀ i : Instr, i.operands.length = operandCount i.opcode
  | .nop => OperandCount.nop | .hlt => OperandCount.hlt | .ret => OperandCount.ret | .iret => OperandCount.iret
  | .push a => OperandCount.push a | .pop a => OperandCount.pop a
  | .prn a => OperandCount.prn a | .pra a => OperandCount.pra a
  | .call a => OperandCount.call a | .int a => OperandCount.int a
  | .jmp a => OperandCount.jmp a | .jeq a => OperandCount.jeq a | .jne a => OperandCount.jne a
  | .jgt a => OperandCount.jgt a | .jlt a => OperandCount.jlt a
  | .jle a => OperandCount.jle a | .jge a => OperandCount.jge a
  | .inc a => OperandCount.inc a | .dec a => OperandCount.dec a | .not a => OperandCount.not a
  | .ldi a b => OperandCount.ldi a b | .ld a b => OperandCount.ld a b | .st a b => OperandCount.st a b
  | .add a b => OperandCount.add a b | .sub a b => OperandCount.sub a b | .mul a b => OperandCount.mul a b
  | .div a b => OperandCount.div a b | .mod a b => OperandCount.mod a b | .cmp a b => OperandCount.cmp a b
  | .and a b => OperandCount.and a b | .or a b => OperandCount.or a b | .xor a b => OperandCount.xor a b
  | .shl a b => OperandCount.shl a b | .shr a b => OperandCount.shr a b

theorem encode_length (i : Instr) : (encode i).length = opLength i.opcode := congrArg (· + 1) i.operands_length

/-- Dropping the declared operand bytes, when all are there, takes `opLength` bytes with the opcode byte. -/
theorem length_eq_opLength_add_drop {op : Byte} {rest : List Byte} (h : operandCount op ≤ rest.length) :
    (op :: rest).length = opLength op + (rest.drop (operandCount op)).length := by
  rw [List.length_cons, List.length_drop, opLength]
  omega

theorem decode_instr_length {op : Byte} {rest after : List Byte} {i : Instr} (h : decode op rest = .instr i after) :
    (op :: rest).length = opLength op + after.length := by
  rcases decode_cases op rest with ⟨-, e⟩ | ⟨-, -, e⟩ | ⟨row, hle, -, e⟩ <;> rw [e] at h <;> cases h
  exact length_eq_opLength_add_drop hle

theorem decode_unrecognised_length {op op' : Byte} {rest after : List Byte} (h : decode op rest = .unrecognised op' after) :
    (op :: rest).length = opLength op + after.length := by
  rcases decode_cases op rest with ⟨-, e⟩ | ⟨hle, -, e⟩ | ⟨row, -, -, e⟩ <;> rw [e] at h <;> cases h
  exact length_eq_opLength_add_drop hle

/-- Settles O46: the operand laws give an encoding's length, and the cases of the decoder give what it takes. -/
theorem lengthFromTopBits : Obligations.LengthFromTopBits :=
  ⟨fun op => ⟨operandCount_eq_shiftRight op, rfl⟩, encode_length, fun _ _ _ _ => decode_instr_length,
    fun _ _ _ => decode_unrecognised_length⟩

end Sys2Proof
end

section
/-!
40_data_movement.md R110: LDI. `exec_eq_advanced`, `topClause_of_operandCount` and `State.regIndexOut_eq_failed` put the three
ends of any instruction, completion and the two faults, in the terms of the statements.
-/
namespace Sys2Proof.Machine

/-- 10_state.md R28 case 1: the range fault of the fetch depends on the opcode byte's declared operand count alone, so any
byte that declares `n` operand bytes meets its clause. -/
theorem topClause_of_operandCount {op : Byte} {n : Nat} (hn : operandCount op = n) : TopClause op n := by
  intro s hs hop htop
  have hpast : 255 < s.pc.toNat + operandCount s.opcodeByte := by rwa [hop, hn]
  calc step s = fetchOutOfRange s.opcodeByte s := step_truncated hs (fetch_truncated s hpast)
    _ = .next (failed .addrRange op s) := by rw [hop]; rfl

/-- 30_encoding.md R86: an illegal register index is the fault written out in the statements. -/
theorem State.regIndexOut_eq_failed (s : State) (v : Byte) : s.regIndexOut v = failed .regIndex v s := rfl

/-- An instruction whose effects are `u` completes with them and the advance as the statements write it out, past its own
encoding. -/
theorem exec_eq_advanced {i : Instr} {s u : State} (h : EffectGives i s u) :
    exec i s = .next (advanced i.opcode (encode i).length u) := by
  rw [exec_of_effect h, advance_eq_advanced, encode_length]

/-- LDI on a legal index: its one effect is the register write, and the successor is three bytes on. -/
theorem exec_ldi_legal {a : Byte} (ha : a.toNat < 8) (b : Byte) (s : State) :
    exec (.ldi a b) s = .next (advanced 0x82 3 (holding s ⟨a.toNat, ha⟩ b)) := by
  have heffect : EffectGives (.ldi a b) s (holding s ⟨a.toNat, ha⟩ b) := ⟨_, ridx_legal ha, rfl⟩
  exact exec_eq_advanced heffect

theorem exec_ldi_illegal {a : Byte} (ha : 7 < a.toNat) (b : Byte) (s : State) :
    exec (.ldi a b) s = .next (failed .regIndex a s) := by
  rw [← State.regIndexOut_eq_failed]
  exact withReg_illegal ha s _

/-- Settles O1: the index is legal and the register write is followed by the advance, or it is reported; the range fault is
that of every opcode with two operand bytes. -/
theorem loadImmediateSetsRegister : Obligations.LoadImmediateSetsRegister :=
  ⟨fun _ _ => rfl, fun _ b ha s => exec_ldi_legal ha b s, fun _ b s ha => exec_ldi_illegal ha b s,
    topClause_of_operandCount rfl⟩

end Sys2Proof.Machine
end

section
/-!
41_output.md R120: PRN. An instruction with one register operand that ends with the advance meets its rule once its effects on a
legal index are known (`registerRule_of_effect`); PRN's one effect is the output event.
-/
namespace Sys2Proof.Machine

/-- The rule of format R, from the effects alone: on a legal index they are followed by the advance past the encoding, and the
fault clauses are those of the checked operand and of the declared operand count. -/
theorem registerRule_of_effect {ctor : Byte → Instr} {op : Byte} {eff : Reg → State → State}
    (henc : ∀ a, encode (ctor a) = [op, a]) (hcount : operandCount op = 1)
    (heff : ∀ a r s, ridx a = some r → EffectGives (ctor a) s (eff r s))
    (hexec : ∀ a s, ∃ k, exec (ctor a) s = withReg a s k) :
    RegisterRule ctor op fun r s => advanced op 2 (eff r s) := by
  refine ⟨henc, ?legal, ?illegal, topClause_of_operandCount hcount⟩
  case legal =>
    intro a ha s
    have hop : (ctor a).opcode = op := (List.cons.inj (henc a)).1
    calc exec (ctor a) s = .next (advanced (ctor a).opcode (encode (ctor a)).length (eff ⟨a.toNat, ha⟩ s)) :=
          exec_eq_advanced (heff a _ s (ridx_legal ha))
      _ = .next (advanced op 2 (eff ⟨a.toNat, ha⟩ s)) := by rw [hop, henc]; rfl
  case illegal =>
    intro a s ha
    obtain ⟨k, hk⟩ := hexec a s
    rw [hk, withReg_illegal ha, State.regIndexOut_eq_failed]

/-- Settles O4: PRN's effect on a legal index is the event with the register's value, and its rule follows. -/
theorem printNumberEmitsRegister : Obligations.PrintNumberEmitsRegister := by
  have heffect : ∀ a r s, ridx a = some r → EffectGives (.prn a) s (s.emit .num (s.reg r)) :=
    fun _ r _ hr => ⟨r, hr, rfl⟩
  exact registerRule_of_effect (fun _ => rfl) rfl heffect fun _ _ => ⟨_, rfl⟩

end Sys2Proof.Machine
end

section
/-!
42_alu.md R130 to R143: the ALU instructions but DIV, MOD and the shifts. The three shapes are one lemma each: two checked
registers (`twoRegisterRule_of_effect`), a binary and a unary register write (`aluRule_of_effect`, `aluUnaryRule_of_effect`).
What remains of an instruction is its ALU function as natural-number arithmetic modulo 256.
-/
namespace Sys2Proof.Machine

/-! ### Two register operands -/

theorem withRegs_illegal_left {a : Byte} (ha : 7 < a.toNat) (b : Byte) (s : State) (k : Reg → Reg → Result) :
    withRegs a b s k = .next (s.regIndexOut a) := withReg_illegal ha s _

theorem withRegs_illegal_right {a b : Byte} (ha : a.toNat < 8) (hb : 7 < b.toNat) (s : State) (k : Reg → Reg → Result) :
    withRegs a b s k = .next (s.regIndexOut b) := by
  rw [withRegs, withReg_legal ha, withReg_illegal hb]

/-- The rule of format RR, from the effects alone, as `registerRule_of_effect` is for format R. -/
theorem twoRegisterRule_of_effect {ctor : Byte → Byte → Instr} {op : Byte} {eff : Reg → Reg → State → State}
    (henc : ∀ a b, encode (ctor a b) = [op, a, b]) (hcount : operandCount op = 2)
    (heff : ∀ a b p q s, ridx a = some p → ridx b = some q → EffectGives (ctor a b) s (eff p q s))
    (hexec : ∀ a b s, ∃ k, exec (ctor a b) s = withRegs a b s k) :
    TwoRegisterRule ctor op fun p q s => advanced op 3 (eff p q s) := by
  refine ⟨henc, ?legal, ?illegalFirst, ?illegalSecond, topClause_of_operandCount hcount⟩
  case legal =>
    intro a b ha hb s
    have hop : (ctor a b).opcode = op := (List.cons.inj (henc a b)).1
    have hrun := exec_eq_advanced (heff a b _ _ s (ridx_legal ha) (ridx_legal hb))
    rwa [hop, henc] at hrun
  case illegalFirst =>
    intro a b s ha
    obtain ⟨k, hk⟩ := hexec a b s
    rw [hk, withRegs_illegal_left ha, State.regIndexOut_eq_failed]
  case illegalSecond =>
    intro a b s ha hb
    obtain ⟨k, hk⟩ := hexec a b s
    rw [hk, withRegs_illegal_right ha hb, State.regIndexOut_eq_failed]

/-! ### The shapes of R130 -/

/-- An instruction that writes `g x[a] x[b]` to `x[a]` meets the rule of every `f` that is `g` on the operands' values, modulo
256. -/
theorem aluRule_of_effect {ctor : Byte → Byte → Instr} {op : Byte} {g : Byte → Byte → Byte} {f : Nat → Nat → Nat}
    (henc : ∀ a b, encode (ctor a b) = [op, a, b]) (hcount : operandCount op = 2)
    (heff : ∀ a b d r s, ridx a = some d → ridx b = some r →
      EffectGives (ctor a b) s (s.setReg d (g (s.reg d) (s.reg r))))
    (hexec : ∀ a b s, exec (ctor a b) s = aluBinary op g a b s)
    (hvalue : ∀ u v, g u v = BitVec.ofNat 8 (f u.toNat v.toNat)) : AluRule ctor op f := by
  refine twoRegisterRule_of_effect henc hcount ?effect fun a b s => ⟨_, hexec a b s⟩
  intro a b d r s hd hr
  rw [← hvalue]
  exact heff a b d r s hd hr

/-- The same for an instruction that writes `g x[a]` to `x[a]`. -/
theorem aluUnaryRule_of_effect {ctor : Byte → Instr} {op : Byte} {g : Byte → Byte} {f : Nat → Nat}
    (henc : ∀ a, encode (ctor a) = [op, a]) (hcount : operandCount op = 1)
    (heff : ∀ a d s, ridx a = some d → EffectGives (ctor a) s (s.setReg d (g (s.reg d))))
    (hexec : ∀ a s, exec (ctor a) s = aluUnary op g a s)
    (hvalue : ∀ u, g u = BitVec.ofNat 8 (f u.toNat)) : AluUnaryRule ctor op f := by
  refine registerRule_of_effect henc hcount ?effect fun a s => ⟨_, hexec a s⟩
  intro a d s hd
  rw [← hvalue]
  exact heff a d s hd

/-! ### The ALU's functions on natural numbers -/

theorem aluAdd_eq_ofNat (u v : Byte) : aluAdd u v = BitVec.ofNat 8 (u.toNat + v.toNat) := wrap8_add _ _

theorem aluSub_eq_ofNat (u v : Byte) : aluSub u v = BitVec.ofNat 8 (u.toNat + 256 - v.toNat) :=
  wrap8_sub _ _ (toNat_lt_256 v).le

theorem aluMul_eq_ofNat (u v : Byte) : aluMul u v = BitVec.ofNat 8 (u.toNat * v.toNat) := wrap8_mul _ _

theorem aluAnd_eq_ofNat (u v : Byte) : aluAnd u v = BitVec.ofNat 8 (u.toNat &&& v.toNat) := by
  rw [← BitVec.toNat_and, BitVec.ofNat_toNat, BitVec.setWidth_eq, aluAnd]

theorem aluOr_eq_ofNat (u v : Byte) : aluOr u v = BitVec.ofNat 8 (u.toNat ||| v.toNat) := by
  rw [← BitVec.toNat_or, BitVec.ofNat_toNat, BitVec.setWidth_eq, aluOr]

theorem aluXor_eq_ofNat (u v : Byte) : aluXor u v = BitVec.ofNat 8 (u.toNat ^^^ v.toNat) := by
  rw [← BitVec.toNat_xor, BitVec.ofNat_toNat, BitVec.setWidth_eq, aluXor]

theorem aluNot_eq_ofNat (u : Byte) : aluNot u = BitVec.ofNat 8 (255 - u.toNat) := wrap8_not u

theorem aluInc_eq_ofNat (u : Byte) : aluInc u = BitVec.ofNat 8 (u.toNat + 1) := wrap8_add_one _

theorem aluDec_eq_ofNat (u : Byte) : aluDec u = BitVec.ofNat 8 (u.toNat + 255) := wrap8_sub_one _

/-! ### Arithmetic -/

/-- Settles O6: ADD's one effect is the write of the wrapped sum. -/
theorem addWritesWrappedSum : Obligations.AddWritesWrappedSum :=
  aluRule_of_effect (fun _ _ => rfl) rfl (fun _ _ d r _ hd hr => ⟨d, r, hd, hr, rfl⟩) (fun _ _ _ => rfl) aluAdd_eq_ofNat

/-- Settles O7: SUB's one effect is the write of the difference, which 256 more makes a natural number. -/
theorem subWritesWrappedDifference : Obligations.SubWritesWrappedDifference :=
  aluRule_of_effect (fun _ _ => rfl) rfl (fun _ _ d r _ hd hr => ⟨d, r, hd, hr, rfl⟩) (fun _ _ _ => rfl) aluSub_eq_ofNat

/-- Settles O8: MUL's one effect is the write of the product's low byte. -/
theorem mulWritesLowByteOfProduct : Obligations.MulWritesLowByteOfProduct :=
  aluRule_of_effect (fun _ _ => rfl) rfl (fun _ _ d r _ hd hr => ⟨d, r, hd, hr, rfl⟩) (fun _ _ _ => rfl) aluMul_eq_ofNat

/-- Settles O16: INC's one effect is the write of the wrapped successor. -/
theorem incAddsOneWrapping : Obligations.IncAddsOneWrapping :=
  aluUnaryRule_of_effect (fun _ => rfl) rfl (fun _ d _ hd => ⟨d, hd, rfl⟩) (fun _ _ => rfl) aluInc_eq_ofNat

/-- Settles O17: DEC's one effect is the write of the wrapped predecessor, the sum with 255. -/
theorem decSubtractsOneWrapping : Obligations.DecSubtractsOneWrapping :=
  aluUnaryRule_of_effect (fun _ => rfl) rfl (fun _ d _ hd => ⟨d, hd, rfl⟩) (fun _ _ => rfl) aluDec_eq_ofNat

/-! ### Bitwise -/

/-- Settles O10: AND's one effect is the write of the bitwise and, which needs no wrapping. -/
theorem andWritesBitwiseAnd : Obligations.AndWritesBitwiseAnd :=
  aluRule_of_effect (fun _ _ => rfl) rfl (fun _ _ d r _ hd hr => ⟨d, r, hd, hr, rfl⟩) (fun _ _ _ => rfl) aluAnd_eq_ofNat

/-- Settles O11: OR's one effect is the write of the bitwise or, which needs no wrapping. -/
theorem orWritesBitwiseOr : Obligations.OrWritesBitwiseOr :=
  aluRule_of_effect (fun _ _ => rfl) rfl (fun _ _ d r _ hd hr => ⟨d, r, hd, hr, rfl⟩) (fun _ _ _ => rfl) aluOr_eq_ofNat

/-- Settles O12: XOR's one effect is the write of the bitwise exclusive or, which needs no wrapping. -/
theorem xorWritesBitwiseExclusiveOr : Obligations.XorWritesBitwiseExclusiveOr :=
  aluRule_of_effect (fun _ _ => rfl) rfl (fun _ _ d r _ hd hr => ⟨d, r, hd, hr, rfl⟩) (fun _ _ _ => rfl) aluXor_eq_ofNat

/-- Settles O13: NOT's one effect is the write of the complement, taken to eight bits. -/
theorem notWritesComplement : Obligations.NotWritesComplement :=
  aluUnaryRule_of_effect (fun _ => rfl) rfl (fun _ d _ hd => ⟨d, hd, rfl⟩) (fun _ _ => rfl) aluNot_eq_ofNat

end Sys2Proof.Machine
end

section
/-!
44_control_transfer.md R171 to R173: JMP, JEQ and JNE. An instruction with one register operand that sets `pc` itself meets its
rule once its next state on a legal index is known (`registerRule_of_withReg`); a conditional jump's is the taken jump or the
two-byte advance (`jumpIf_eq_withReg`), so that of each jump only the condition remains.
-/
namespace Sys2Proof.Machine

/-- The rule of format R, from the next state on a legal index, whether or not the instruction ends with the advance. -/
theorem registerRule_of_withReg {ctor : Byte → Instr} {op : Byte} {fin : Reg → State → State}
    (henc : ∀ a, encode (ctor a) = [op, a]) (hcount : operandCount op = 1)
    (hexec : ∀ a s, exec (ctor a) s = withReg a s fun r => .next (fin r s)) : RegisterRule ctor op fin := by
  refine ⟨henc, ?legal, ?illegal, topClause_of_operandCount hcount⟩
  case legal =>
    intro a ha s
    rw [hexec, withReg_legal ha]
  case illegal =>
    intro a s ha
    rw [hexec, withReg_illegal ha, State.regIndexOut_eq_failed]

/-- R172, R180: past the index check, a jump of one operand byte either sets `pc` alone or advances by two. -/
theorem jumpIf_eq_withReg {op : Byte} (hcount : operandCount op = 1) (cond : Bool) (a : Byte) (s : State) :
    jumpIf cond op a s = withReg a s fun r => .next (if cond then { s with pc := s.reg r } else advanced op 2 s) := by
  have hadvance : s.advance op = advanced op 2 s := by rw [advance_eq_advanced, opLength, hcount]
  rw [← hadvance]
  rfl

/-- A conditional jump meets the rule of its condition. -/
theorem jumpRule_of_jumpIf {ctor : Byte → Instr} {op : Byte} {cond : State → Bool}
    (henc : ∀ a, encode (ctor a) = [op, a]) (hcount : operandCount op = 1)
    (hexec : ∀ a s, exec (ctor a) s = jumpIf (cond s) op a s) : JumpRule ctor op cond :=
  registerRule_of_withReg henc hcount fun a s => (hexec a s).trans (jumpIf_eq_withReg hcount (cond s) a s)

/-- Settles O19: on a legal index JMP sets `pc` and no advance follows, so no successor is checked. -/
theorem jumpGoesToRegister : Obligations.JumpGoesToRegister :=
  registerRule_of_withReg (fun _ => rfl) rfl fun _ _ => rfl

/-- Settles O20: JEQ is the conditional jump on E. -/
theorem jumpIfEqual : Obligations.JumpIfEqual :=
  jumpRule_of_jumpIf (fun _ => rfl) rfl fun _ _ => rfl

/-- Settles O21: JNE is the conditional jump on the complement of E. -/
theorem jumpIfNotEqual : Obligations.JumpIfNotEqual :=
  jumpRule_of_jumpIf (fun _ => rfl) rfl fun _ _ => rfl

end Sys2Proof.Machine
end

section
/-!
46_system.md R201: NOP. It has no effect of its own, so what is left of it is the advance that ends every such instruction
(`exec_eq_advanced`).
-/
namespace Sys2Proof.Machine

/-- Settles O28: NOP's effects leave the state as it is, and the advance past its one byte follows. -/
theorem nopOnlyAdvances : Obligations.NopOnlyAdvances := by
  refine ⟨rfl, fun s => ?_⟩
  have heffect : EffectGives .nop s s := rfl
  exact exec_eq_advanced heffect

end Sys2Proof.Machine
end

section
/-!
60_exceptions.md R220, R226, R229, R230: what a step does to the run's status, that is to the event list, `Faulted` and
`Halted`. An instruction or an unrecognised byte completes in one of three ways (`Completes`) or fails (`Fails`);
`ExecGives_status` says so of `exec` and `step_status` of a step. The statements about the end of a run, the event list
and the invariant follow from these two.
-/
namespace Sys2Proof.Machine

variable {H Z H' Z' : Prop} {i : Instr} {s t u : State}

/-! ### The ways a step can end -/

/-- An event that does not end the run and, if it is a report, carries the address `pc`. -/
def Event.HarmlessAt (pc : Pc) (e : Event) : Prop := e.endsRun = false ∧ ∀ r, e = .rpt r → r.addr = pc

/-- DIV or MOD with two legal indices and a zero divisor. -/
def ZeroDivides (i : Instr) (s : State) : Prop :=
  ∃ a b p q, (i = .div a b ∨ i = .mod a b) ∧ ridx a = some p ∧ ridx b = some q ∧ s.reg q = 0

/-- The three ways from `s` to `t` without a fault: the run goes on, it halts on HLT (which is `H`), or it halts on a zero
divisor (which is `Z`). -/
inductive Completes (H Z : Prop) (s t : State) : Prop where
  | goesOn (l : List Event) (hlen : l.length ≤ 1) (hl : ∀ e ∈ l, e.HarmlessAt s.pc) (hevents : t.events = s.events ++ l)
      (hfaulted : t.faulted = s.faulted) (hhalted : t.halted = s.halted)
  | halts (hH : H) (hevents : t.events = s.events) (hfaulted : t.faulted = s.faulted) (hhalted : t.halted = true)
  | zeroDivisor (hZ : Z) (op : Byte) (hevents : t.events = s.events ++ [.rpt ⟨.divideByZero, s.pc, op⟩])
      (hfaulted : t.faulted = s.faulted) (hhalted : t.halted = true)

/-- The fault `r` of the instruction at `pc`, reported last. -/
def Fails (s t : State) : Prop :=
  ∃ (l : List Event) (r : Report), l.length ≤ 1 ∧ (∀ e ∈ l, e.HarmlessAt s.pc) ∧ r.addr = s.pc ∧ r.code.isFault = true ∧
    t.events = s.events ++ l ++ [.rpt r] ∧ t.faulted = some r ∧ t.halted = s.halted

theorem Event.harmlessAt_out (pc : Pc) (k : OutKind) (v : Byte) : (Event.out k v).HarmlessAt pc := ⟨rfl, nofun⟩

theorem Event.harmlessAt_unrecognised (pc : Pc) (op : Byte) : (Event.rpt ⟨.unrecognised, pc, op⟩).HarmlessAt pc := by
  refine ⟨rfl, fun r hr => ?_⟩
  cases hr
  rfl

/-- `Completes` speaks of the status fields only. -/
theorem Completes.congr (h : Completes H Z s u) (he : t.events = u.events) (hf : t.faulted = u.faulted)
    (hh : t.halted = u.halted) : Completes H Z s t := by
  cases h with
  | goesOn l hlen hl h1 h2 h3 => exact .goesOn l hlen hl (he.trans h1) (hf.trans h2) (hh.trans h3)
  | halts hH h1 h2 h3 => exact .halts hH (he.trans h1) (hf.trans h2) (hh.trans h3)
  | zeroDivisor hZ op h1 h2 h3 => exact .zeroDivisor hZ op (he.trans h1) (hf.trans h2) (hh.trans h3)

theorem Completes.imp (h : Completes H Z s t) (hH : H → H') (hZ : Z → Z') : Completes H' Z' s t := by
  cases h with
  | goesOn l hlen hl h1 h2 h3 => exact .goesOn l hlen hl h1 h2 h3
  | halts h h1 h2 h3 => exact .halts (hH h) h1 h2 h3
  | zeroDivisor h op h1 h2 h3 => exact .zeroDivisor (hZ h) op h1 h2 h3

theorem completes_of_status_eq (he : t.events = s.events) (hf : t.faulted = s.faulted) (hh : t.halted = s.halted) :
    Completes H Z s t :=
  .goesOn [] (Nat.zero_le 1) nofun (by rw [he, List.append_nil]) hf hh

theorem completes_of_event {e : Event} (hl : e.HarmlessAt s.pc) (he : t.events = s.events ++ [e])
    (hf : t.faulted = s.faulted) (hh : t.halted = s.halted) : Completes H Z s t :=
  .goesOn [e] le_rfl (List.forall_mem_singleton.2 hl) he hf hh

theorem completes_report_unrecognised (s : State) (op : Byte) : Completes H Z s (s.report ⟨.unrecognised, s.pc, op⟩) :=
  completes_of_event (Event.harmlessAt_unrecognised s.pc op) rfl rfl rfl

theorem fails_failed {c : Condition} (hc : c.isFault = true) (info : Byte) (s : State) : Fails s (failed c info s) :=
  ⟨[], ⟨c, s.pc, info⟩, Nat.zero_le 1, nofun, rfl, hc, by rw [List.append_nil]; rfl, rfl, rfl⟩

/-- The sequential end of a step adds nothing but the successor fault, and that only to a run that goes on. -/
theorem Completes.advance (h : Completes H Z s u) (hpc : u.pc = s.pc) (op : Byte) :
    Completes H Z s (u.advance op) ∨ Fails s (u.advance op) := by
  rcases State.advance_cases u op with e | ⟨-, hrun, e⟩ <;> rw [e]
  · exact .inl (h.congr rfl rfl rfl)
  · cases h with
    | goesOn l hlen hl hevents _ hhalted =>
      refine .inr ⟨l, ⟨.addrRange, u.pc, op⟩, hlen, hl, hpc, rfl, ?_, rfl, hhalted⟩
      rw [State.raiseAt_events, State.setPc_events, hevents]
    | halts _ _ _ hhalted => rw [hrun] at hhalted; cases hhalted
    | zeroDivisor _ _ _ _ hhalted => rw [hrun] at hhalted; cases hhalted

/-! ### What `exec` and `step` do to the status -/

/-- The effects of an instruction complete in one of the three ways. -/
theorem EffectGives_completes (h : EffectGives i s u) : Completes (i = .hlt) (ZeroDivides i s) s u := by
  cases i
  case hlt => subst h; exact .halts rfl rfl rfl rfl
  case prn | pra =>
    obtain ⟨r, -, rfl⟩ := h
    exact completes_of_event (Event.harmlessAt_out _ _ _) rfl rfl rfl
  case div a b | mod a b =>
    obtain ⟨p, q, hp, hq, ⟨hz, rfl⟩ | ⟨-, rfl⟩⟩ := h
    · exact .zeroDivisor ⟨a, b, p, q, by simp, hp, hq, hz⟩ _ rfl rfl rfl
    · exact completes_of_status_eq rfl rfl rfl
  case nop => subst h; exact completes_of_status_eq rfl rfl rfl
  case ret | iret | call | int | jmp => exact h.elim
  case push | pop | inc | dec | not | ldi =>
    obtain ⟨r, -, rfl⟩ := h
    exact completes_of_status_eq rfl rfl rfl
  case jeq | jne | jgt | jlt | jle | jge =>
    obtain ⟨r, -, -, rfl⟩ := h
    exact completes_of_status_eq rfl rfl rfl
  case ld | st | add | sub | mul | cmp | and | or | xor | shl | shr =>
    obtain ⟨p, q, -, -, rfl⟩ := h
    exact completes_of_status_eq rfl rfl rfl

/-- The status after an instruction, from any state. -/
theorem ExecGives_status (h : ExecGives i s t) : Completes (i = .hlt) (ZeroDivides i s) s t ∨ Fails s t := by
  rcases h with ⟨v, -, -, rfl⟩ | ⟨u, hu, rfl⟩ | hc
  · exact .inr (fails_failed rfl v s)
  · exact (EffectGives_completes hu).advance (EffectGives_pc hu) i.opcode
  · obtain ⟨-, hhalted⟩ := ControlGives_fl_halted hc
    obtain ⟨-, -, ⟨hevents, hfaulted⟩ | ⟨c, hfault, rfl⟩⟩ := ControlGives_events hc
    · exact .inl (completes_of_status_eq hevents hfaulted hhalted)
    · exact .inr (fails_failed hfault i.opcode s)

/-- The status after a step of a running machine: it halts only on HLT or a zero divisor. -/
theorem step_status (hs : s.stopped = false) (h : step s = .next t) :
    Completes (∃ rest, fetch s = .instr .hlt rest) (∃ i rest, fetch s = .instr i rest ∧ ZeroDivides i s) s t ∨ Fails s t := by
  rcases step_gives hs h with ⟨-, rfl⟩ | ⟨i, rest, hf, hg⟩ | ⟨rest, -, rfl⟩
  · exact .inr (fails_failed rfl s.opcodeByte s)
  · refine (ExecGives_status hg).imp_left fun hc => hc.imp ?_ fun hz => ⟨i, rest, hf, hz⟩
    rintro rfl
    exact ⟨rest, hf⟩
  · exact (completes_report_unrecognised s s.opcodeByte).advance rfl s.opcodeByte

/-- Log entry 1: a stopped state answers itself. -/
theorem step_stopped (hs : s.stopped = true) : step s = .next s := if_pos hs

end Sys2Proof.Machine
end

section
/-!
10_state.md R32, R33, R34, 60_exceptions.md R230: the invariant. In a running state that meets it no event ends the run
(`State.Inv.not_endsRun`); what one step then adds to the status, `Completes` or `Fails`, keeps the record of the run's
end.
-/
namespace Sys2Proof.Machine

variable {H Z : Prop} {i : Instr} {s t u : State}

/-! ### The record of the run's end -/

theorem State.nothingAfterEnd_of_concat {l : List Event} {e : Event} (h : t.events = l ++ [e])
    (hl : ∀ e ∈ l, e.endsRun = false) : t.nothingAfterEnd = true := by
  rw [State.nothingAfterEnd, h, List.dropLast_concat]
  simpa using hl

theorem State.nothingAfterEnd_of_forall (h : ∀ e ∈ t.events, e.endsRun = false) : t.nothingAfterEnd = true := by
  simpa [State.nothingAfterEnd] using fun e he => h e (List.mem_of_mem_dropLast he)

theorem State.endConsistent_of_forall (hf : t.faulted = none) (h : ∀ e ∈ t.events, e.endsRun = false) :
    t.endConsistent = true := by
  rw [State.endConsistent, hf]
  cases hl : t.events.getLast? with
  | none => rfl
  | some e =>
    have he := h e (List.mem_of_getLast? hl)
    cases e with
    | out k v => rfl
    | rpt r =>
      have hr : r.code.endsRun = false := he
      simp [hr]

theorem State.endConsistent_of_fault {l : List Event} {r : Report} (h : t.events = l ++ [.rpt r]) (hr : r.code.isFault = true)
    (hf : t.faulted = some r) (hh : t.halted = false) : t.endConsistent = true := by
  simp [State.endConsistent, hf, h, hr, hh]

theorem State.endConsistent_of_zeroDivisor {l : List Event} {r : Report} (h : t.events = l ++ [.rpt r])
    (hr : r.code = .divideByZero) (hf : t.faulted = none) (hh : t.halted = true) : t.endConsistent = true := by
  simp [State.endConsistent, hf, h, hr, hh]

/-- In a running state that meets the invariant no event ends the run: the last one would have stopped it. -/
theorem State.Inv.not_endsRun (hi : s.Inv) (hs : s.stopped = false) : ∀ e ∈ s.events, e.endsRun = false := by
  obtain ⟨-, -, hafter, hend⟩ := hi
  obtain ⟨hhalted, hfaulted⟩ := (State.stopped_false_iff s).1 hs
  rcases List.eq_nil_or_concat s.events with h | ⟨l, e, h⟩
  · rw [h]; nofun
  · rw [List.concat_eq_append] at h
    have hbefore : ∀ e ∈ l, e.endsRun = false := by simpa [State.nothingAfterEnd, h] using hafter
    have hlast : e.endsRun = false := by
      cases e with
      | out k v => rfl
      | rpt r => simpa [State.endConsistent, Event.endsRun, hfaulted, hhalted, h] using hend
    rw [h]
    exact List.forall_mem_append.2 ⟨hbefore, List.forall_mem_singleton.2 hlast⟩

/-- A step without a fault from a running state keeps the record of the end. -/
theorem Completes.endRecorded (h : Completes H Z s t) (hs : ∀ e ∈ s.events, e.endsRun = false) (hf : s.faulted = none) :
    t.nothingAfterEnd = true ∧ t.endConsistent = true := by
  cases h with
  | goesOn l _ hl hevents hfaulted _ =>
    have hall : ∀ e ∈ t.events, e.endsRun = false := by
      rw [hevents]
      exact List.forall_mem_append.2 ⟨hs, fun e he => (hl e he).1⟩
    exact ⟨State.nothingAfterEnd_of_forall hall, State.endConsistent_of_forall (hfaulted.trans hf) hall⟩
  | halts _ hevents hfaulted _ =>
    rw [← hevents] at hs
    exact ⟨State.nothingAfterEnd_of_forall hs, State.endConsistent_of_forall (hfaulted.trans hf) hs⟩
  | zeroDivisor _ op hevents hfaulted hhalted =>
    exact ⟨State.nothingAfterEnd_of_concat hevents hs,
      State.endConsistent_of_zeroDivisor hevents rfl (hfaulted.trans hf) hhalted⟩

/-- A fault from a running state does. -/
theorem Fails.endRecorded (h : Fails s t) (hs : ∀ e ∈ s.events, e.endsRun = false) (hh : s.halted = false) :
    t.nothingAfterEnd = true ∧ t.endConsistent = true := by
  obtain ⟨l, r, -, hl, -, hfault, hevents, hfaulted, hhalted⟩ := h
  have hbefore : ∀ e ∈ s.events ++ l, e.endsRun = false := List.forall_mem_append.2 ⟨hs, fun e he => (hl e he).1⟩
  exact ⟨State.nothingAfterEnd_of_concat hevents hbefore,
    State.endConsistent_of_fault hevents hfault hfaulted (hhalted.trans hh)⟩

/-! ### Memory and `FL` -/

theorem State.flLegal_of_outcome (h : t.fl = flEqual ∨ t.fl = flGreater ∨ t.fl = flLess) : t.flLegal = true := by
  rcases h with h | h | h <;> rw [State.flLegal, h] <;> rfl

theorem State.flLegal_of_eq (h : t.fl = s.fl) (hs : s.flLegal = true) : t.flLegal = true := by
  rwa [State.flLegal, h]

theorem ExecGives_flLegal (h : ExecGives i s t) (hs : s.flLegal = true) : t.flLegal = true := by
  rcases h with ⟨v, -, -, rfl⟩ | ⟨u, hu, rfl⟩ | hc
  · exact hs
  · rcases EffectGives_fl hu with hfl | ⟨a, b, p, q, -, -, -, hfl⟩
    · exact State.flLegal_of_eq ((u.advance_fl _).trans hfl) hs
    · rw [← u.advance_fl i.opcode] at hfl
      exact State.flLegal_of_outcome (hfl ▸ compareFlags_outcome _ _)
  · exact State.flLegal_of_eq (ControlGives_fl_halted hc).1 hs

theorem ExecGives_mem_wf (h : ExecGives i s t) (hs : s.mem.wf = true) : t.mem.wf = true := by
  rcases h with ⟨v, -, -, rfl⟩ | ⟨u, hu, rfl⟩ | hc
  · exact hs
  · rw [State.advance_mem]; exact EffectGives_mem_wf hu hs
  · exact ControlGives_mem_wf hc hs

/-- A step of a running machine keeps memory canonical and `FL` legal. -/
theorem step_mem_wf_flLegal (hs : s.stopped = false) (h : step s = .next t) (hw : s.mem.wf = true) (hl : s.flLegal = true) :
    t.mem.wf = true ∧ t.flLegal = true := by
  rcases step_gives hs h with ⟨-, rfl⟩ | ⟨i, rest, -, hg⟩ | ⟨rest, -, rfl⟩
  · exact ⟨hw, hl⟩
  · exact ⟨ExecGives_mem_wf hg hw, ExecGives_flLegal hg hl⟩
  · exact ⟨by rwa [State.advance_mem], State.flLegal_of_eq (State.advance_fl _ _) hl⟩

/-! ### The invariant -/

theorem step_keeps_inv (hi : s.Inv) (h : step s = .next t) : t.Inv := by
  cases hs : s.stopped with
  | true => rw [step_stopped hs] at h; cases h; exact hi
  | false =>
    obtain ⟨hhalted, hfaulted⟩ := (State.stopped_false_iff s).1 hs
    have hquiet := hi.not_endsRun hs
    obtain ⟨hw, hl, -, -⟩ := hi
    obtain ⟨hw', hl'⟩ := step_mem_wf_flLegal hs h hw hl
    have hend : t.nothingAfterEnd = true ∧ t.endConsistent = true :=
      (step_status hs h).elim (·.endRecorded hquiet hfaulted) (·.endRecorded hquiet hhalted)
    exact ⟨hw', hl', hend⟩

/-- Settles O40: memory and `FL` are kept by every instruction's effects, and the record of the end by the status of the
step. -/
theorem stepKeepsInvariant : Obligations.StepKeepsInvariant := fun _ _ => step_keeps_inv

end Sys2Proof.Machine
end

section
/-!
30_encoding.md R80, R85, R88: decode and encode. A table row builds an instruction with the row's opcode and as many of
the two bytes as that opcode declares (`opcodeTable_build_operands`), and an instruction is determined by its opcode and
operand bytes (`Instr.eq_of_opcode_operands`). The two directions follow.
-/
namespace Sys2Proof

open Laws

/-- Every instruction's opcode has a row that builds it back: the laws per constructor, as one fact. -/
theorem Instr.tableRow : ∀ i : Instr, TableRow.Statement i
  | .nop => TableRow.nop | .hlt => TableRow.hlt | .ret => TableRow.ret | .iret => TableRow.iret
  | .push a => TableRow.push a | .pop a => TableRow.pop a
  | .prn a => TableRow.prn a | .pra a => TableRow.pra a
  | .call a => TableRow.call a | .int a => TableRow.int a
  | .jmp a => TableRow.jmp a | .jeq a => TableRow.jeq a | .jne a => TableRow.jne a
  | .jgt a => TableRow.jgt a | .jlt a => TableRow.jlt a
  | .jle a => TableRow.jle a | .jge a => TableRow.jge a
  | .inc a => TableRow.inc a | .dec a => TableRow.dec a | .not a => TableRow.not a
  | .ldi a b => TableRow.ldi a b | .ld a b => TableRow.ld a b | .st a b => TableRow.st a b
  | .add a b => TableRow.add a b | .sub a b => TableRow.sub a b | .mul a b => TableRow.mul a b
  | .div a b => TableRow.div a b | .mod a b => TableRow.mod a b | .cmp a b => TableRow.cmp a b
  | .and a b => TableRow.and a b | .or a b => TableRow.or a b | .xor a b => TableRow.xor a b
  | .shl a b => TableRow.shl a b | .shr a b => TableRow.shr a b

/-- A row builds an instruction with as many operand bytes as its opcode declares, and declares at most two (R84, R89). -/
theorem opcodeTable_build_operands : ∀ row ∈ opcodeTable, ∀ a b : Byte,
    (row.build a b).operands = [a, b].take (operandCount row.opcode) ∧ operandCount row.opcode ≤ 2 := by
  simp only [opcodeTable, List.cons_append, List.nil_append, List.forall_mem_cons, List.not_mem_nil, false_implies,
    implies_true, and_true]
  and_intros <;> exact fun _ _ => ⟨rfl, by decide⟩

/-- An instruction is determined by its opcode byte and its operand bytes. -/
theorem Instr.eq_of_opcode_operands {i j : Instr} (hop : i.opcode = j.opcode) (hargs : i.operands = j.operands) : i = j := by
  obtain ⟨row, hrow, hi⟩ := i.tableRow
  obtain ⟨row', hrow', hj⟩ := j.tableRow
  rw [hop, hrow', Option.some_inj] at hrow
  rw [← hi, ← hj, hrow, hargs]

/-- The two bytes the decoder hands a row, as far as they are declared, are the declared bytes themselves. -/
theorem take_pair_getD {n : Nat} {l : List Byte} (hn : n ≤ 2) (hl : n ≤ l.length) :
    [l.getD 0 0, l.getD 1 0].take n = l.take n := by
  refine List.ext_getElem (by simp; omega) fun k hk _ => ?_
  have hkn : k < n := by simp at hk; omega
  have hk2 : k = 0 ∨ k = 1 := by omega
  have hkl : k < l.length := by omega
  rcases hk2 with rfl | rfl <;> simp [hkl]

/-- What the decoder answers on a recognised opcode, in terms of opcode and operand bytes. -/
theorem build_of_lookup {op : Byte} {row : OpcodeRow} {rest : List Byte} (h : lookupOpcode op = some row)
    (hl : operandCount op ≤ rest.length) :
    (row.build (rest.getD 0 0) (rest.getD 1 0)).opcode = op ∧
    (row.build (rest.getD 0 0) (rest.getD 1 0)).operands = rest.take (operandCount op) := by
  obtain ⟨hmem, rfl⟩ := lookupOpcode_sound h
  obtain ⟨hargs, htwo⟩ := opcodeTable_build_operands row hmem (rest.getD 0 0) (rest.getD 1 0)
  exact ⟨opcodeTable_build_opcode hmem _ _, hargs.trans (take_pair_getD htwo hl)⟩

/-- The decoder reads an instruction back from its opcode and operand bytes, whatever follows. -/
theorem decode_opcode_operands (i : Instr) (after : List Byte) : decode i.opcode (i.operands ++ after) = .instr i after := by
  obtain ⟨row, hrow, -⟩ := i.tableRow
  have hcount := i.operands_length
  have hl : operandCount i.opcode ≤ (i.operands ++ after).length := by rw [List.length_append]; omega
  obtain ⟨hop, hargs⟩ := build_of_lookup hrow hl
  rw [← hcount, List.take_left] at hargs
  rw [decode_row hl hrow, Instr.eq_of_opcode_operands hop hargs, ← hcount, List.drop_left]

/-- What the decoder accepts is the encoding of what it answers. -/
theorem encode_of_decode {op : Byte} {rest after : List Byte} {i : Instr} (h : decode op rest = .instr i after) :
    encode i ++ after = op :: rest := by
  rcases decode_cases op rest with ⟨-, e⟩ | ⟨-, -, e⟩ | ⟨row, hl, hrow, e⟩ <;> rw [e] at h <;> cases h
  obtain ⟨hop, hargs⟩ := build_of_lookup hrow hl
  rw [encode, hop, hargs, List.cons_append, List.take_append_drop]

/-- Settles O44: the bytes after the opcode are the operand bytes and what follows, and the table's row builds `i` from
them. -/
theorem decodeReadsBackEncode : Obligations.DecodeReadsBackEncode := by
  intro i op rest after h
  obtain ⟨rfl, rfl⟩ := List.cons.inj h
  exact decode_opcode_operands i after

/-- Settles O45: an accepted opcode has a row, which builds the instruction with that opcode and the declared bytes. -/
theorem encodeReadsBackDecode : Obligations.EncodeReadsBackDecode := fun _ _ _ _ => encode_of_decode

end Sys2Proof
end

section
/-!
70_reset_and_hazards.md R250 to R253: runs. Every step has a next state, so a run goes on for any number of steps and
keeps the invariant that the start-of-run state meets; a stopped state stays as it is; and the status of a step says how a
run can end.
-/
namespace Sys2Proof.Machine

variable {H Z : Prop} {i : Instr} {s t : State}

/-! ### Steps and runs -/

/-- Settles O33: a stopped state answers itself, and each other kind of fetch, an instruction's meaning among them, a next
state. -/
theorem everyStepAnswersNextState : Obligations.EveryStepAnswersNextState := by
  intro s
  rcases step_cases s with ⟨-, e⟩ | ⟨-, i, rest, -, e⟩ | ⟨-, op, rest, -, e⟩ | ⟨-, op, -, e⟩
  · exact ⟨s, e⟩
  · obtain ⟨t, ht, -⟩ := exec_gives i s
    exact ⟨t, e.trans ht⟩
  · exact ⟨_, e⟩
  · exact ⟨_, e⟩

/-- Settles O32: a stopped state answers itself at every step of the run. -/
theorem finishedRunNeverChanges : Obligations.FinishedRunNeverChanges := by
  intro s hs n
  induction n with
  | zero => rfl
  | succ n ih => rw [run_succ n (step_stopped hs), ih]

theorem run_keeps_inv (n : Nat) (hi : s.Inv) (h : Sys2Proof.core.run n s = .next t) : t.Inv := by
  induction n generalizing s with
  | zero =>
    have hrun : Sys2Proof.core.run 0 s = .next s := rfl
    rw [hrun] at h
    cases h
    exact hi
  | succ n ih =>
    obtain ⟨u, hu⟩ := everyStepAnswersNextState s
    rw [run_succ n hu] at h
    exact ih (step_keeps_inv hi hu) h

/-- Settles O41: no cell is listed, `FL` is 0, and there is no event. -/
theorem resetMeetsInvariant : Obligations.ResetMeetsInvariant := ⟨reset_mem_wf, rfl, rfl, rfl⟩

/-- The start-of-run state is the reset state with the image placed from address 0 (R251). -/
theorem startOfRun_eq {words : List Nat} (h : startOfRun words = some s) :
    imageOk words = true ∧ s = { State.reset with mem := Memory.place [] 0 (words.map (BitVec.ofNat 8)) } := by
  by_cases hok : imageOk words = true
  · have hload : startOfRun words = some _ := if_pos hok
    rw [hload] at h
    cases h
    exact ⟨hok, rfl⟩
  · have hrefuse : startOfRun words = none := if_neg hok
    rw [hrefuse] at h
    cases h

theorem startOfRun_inv {words : List Nat} (h : startOfRun words = some s) : s.Inv := by
  obtain ⟨-, rfl⟩ := startOfRun_eq h
  exact ⟨Memory.place_wf _ _ reset_mem_wf, rfl, rfl, rfl⟩

/-- Settles O42: the loaded state meets the invariant, and every step keeps it. -/
theorem everyRunKeepsInvariant : Obligations.EveryRunKeepsInvariant :=
  fun _ _ n _ hstart hrun => run_keeps_inv n (startOfRun_inv hstart) hrun

/-! ### `Halted` and the event list -/

/-- Settles O35: a step that completes halts only on HLT or on a zero divisor, and a fault keeps `Halted`. -/
theorem haltedOnlyByHaltOrZeroDivisor : Obligations.HaltedOnlyByHaltOrZeroDivisor := by
  intro s t h
  cases hs : s.stopped with
  | true =>
    rw [step_stopped hs] at h
    cases h
    exact ⟨id, fun h0 h1 => absurd h1 (by simp [h0])⟩
  | false =>
    obtain ⟨hrun, -⟩ := (State.stopped_false_iff s).1 hs
    refine ⟨fun h1 => absurd h1 (by simp [hrun]), fun _ h1 => ?_⟩
    rcases step_status hs h with hc | ⟨l, r, -, -, -, -, -, -, hhalted⟩
    · cases hc with
      | goesOn _ _ _ _ _ hhalted => rw [hhalted, hrun] at h1; cases h1
      | halts hfetch =>
        obtain ⟨rest, hf⟩ := hfetch
        exact ⟨.hlt, rest, hf, .inl rfl⟩
      | zeroDivisor hfetch =>
        obtain ⟨i, rest, hf, a, b, p, q, hi, -, hq, hz⟩ := hfetch
        exact ⟨i, rest, hf, .inr ⟨a, b, q, hi, hq, hz⟩⟩
    · rw [hhalted, hrun] at h1; cases h1

/-- Events after a step that completes: at most one more, whose report carries the step's address. -/
theorem Completes.events (h : Completes H Z s t) :
    ∃ l, t.events = s.events ++ l ∧ l.length ≤ 1 ∧ ∀ r, Event.rpt r ∈ l → r.addr = s.pc := by
  cases h with
  | goesOn l hlen hl hevents => exact ⟨l, hevents, hlen, fun r hr => (hl _ hr).2 r rfl⟩
  | halts _ hevents => exact ⟨[], by rw [hevents, List.append_nil], Nat.zero_le 1, nofun⟩
  | zeroDivisor _ op hevents =>
    refine ⟨_, hevents, le_rfl, fun r hr => ?_⟩
    cases List.mem_singleton.1 hr
    rfl

/-- Events after a fault: at most two more, the fault's report last. -/
theorem Fails.events (h : Fails s t) :
    ∃ l, t.events = s.events ++ l ∧ l.length ≤ 2 ∧ ∀ r, Event.rpt r ∈ l → r.addr = s.pc := by
  obtain ⟨l, r, hlen, hl, haddr, -, hevents, -, -⟩ := h
  refine ⟨l ++ [.rpt r], by rw [hevents, List.append_assoc], by simpa using hlen, fun r' hr' => ?_⟩
  rcases List.mem_append.1 hr' with hr' | hr'
  · exact (hl _ hr').2 r' rfl
  · cases List.mem_singleton.1 hr'
    exact haddr

/-- Settles O36: a step that completes appends at most one event and a fault at most one more. -/
theorem stepAppendsAtMostTwoEvents : Obligations.StepAppendsAtMostTwoEvents := by
  intro s t h
  cases hs : s.stopped with
  | true =>
    rw [step_stopped hs] at h
    cases h
    exact ⟨[], (List.append_nil _).symm, Nat.zero_le 2, nofun⟩
  | false =>
    rcases step_status hs h with hc | hfail
    · obtain ⟨l, hevents, hlen, haddr⟩ := hc.events
      exact ⟨l, hevents, hlen.trans one_le_two, haddr⟩
    · exact hfail.events

/-! ### The end of a run -/

theorem State.endOfRun_of_fault {r : Report} (hf : t.faulted = some r) : t.endOfRun = some .failedRun := by
  simp [State.endOfRun, hf]

/-- A run failed exactly when `Faulted` is set, whatever the rest of the state. -/
theorem State.endOfRun_eq_failedRun_iff (t : State) : t.endOfRun = some .failedRun ↔ t.faulted ≠ none := by
  cases hf : t.faulted with
  | some r => simp [State.endOfRun_of_fault hf]
  | none =>
    have hnot : t.endOfRun ≠ some .failedRun := by
      simp only [State.endOfRun, hf, Option.isSome_none, Bool.false_eq_true, if_false]
      repeat' split
      all_goals simp
    simp [hnot]

theorem State.endOfRun_of_running (hf : t.faulted = none) (hh : t.halted = false) : t.endOfRun = none := by
  simp [State.endOfRun, hf, hh]

/-- A halt with no event that ends the run is a normal one: no report left is a DivideByZero. -/
theorem State.endOfRun_of_halt (hf : t.faulted = none) (hh : t.halted = true) (he : ∀ e ∈ t.events, e.endsRun = false) :
    t.endOfRun = some .normalHalt := by
  simp only [State.endOfRun, hf, hh, Option.isSome_none, Bool.false_eq_true, if_false, if_true]
  cases hlast : t.reports.getLast? with
  | none => rfl
  | some r =>
    obtain ⟨e, hmem, hr⟩ := List.mem_filterMap.1 (List.mem_of_getLast? hlast)
    have hcode : r.code ≠ .divideByZero := by
      intro hz
      cases e with
      | out k v => cases hr
      | rpt r' =>
        cases hr
        have hends := he _ hmem
        rw [Event.endsRun, hz] at hends
        cases hends
    simp [hcode]

theorem State.endOfRun_of_zeroDivisor {l : List Event} {r : Report} (hf : t.faulted = none) (hh : t.halted = true)
    (he : t.events = l ++ [.rpt r]) (hr : r.code = .divideByZero) : t.endOfRun = some .divisionByZeroHalt := by
  simp [State.endOfRun, State.reports, hf, hh, he, hr, Event.report?]

/-- How a run from a running state with no event that ends it stands after a step that completes. -/
theorem Completes.endOfRun (h : Completes H Z s t) (hs : ∀ e ∈ s.events, e.endsRun = false) (hf : s.faulted = none)
    (hh : s.halted = false) :
    t.endOfRun = none ∨ H ∧ t.endOfRun = some .normalHalt ∨ Z ∧ t.endOfRun = some .divisionByZeroHalt := by
  cases h with
  | goesOn _ _ _ _ hfaulted hhalted => exact .inl (State.endOfRun_of_running (hfaulted.trans hf) (hhalted.trans hh))
  | halts hH hevents hfaulted hhalted =>
    exact .inr (.inl ⟨hH, State.endOfRun_of_halt (hfaulted.trans hf) hhalted (hevents ▸ hs)⟩)
  | zeroDivisor hZ op hevents hfaulted hhalted =>
    exact .inr (.inr ⟨hZ, State.endOfRun_of_zeroDivisor (hfaulted.trans hf) hhalted hevents rfl⟩)

/-- How a run stands after a step from a running state that meets the invariant. -/
theorem step_endOfRun (hi : s.Inv) (hs : s.stopped = false) (h : step s = .next t) :
    (t.endOfRun = none ∨ (∃ rest, fetch s = .instr .hlt rest) ∧ t.endOfRun = some .normalHalt ∨
      (∃ i rest, fetch s = .instr i rest ∧ ZeroDivides i s) ∧ t.endOfRun = some .divisionByZeroHalt) ∨
    t.endOfRun = some .failedRun := by
  obtain ⟨hrun, hnofault⟩ := (State.stopped_false_iff s).1 hs
  refine (step_status hs h).imp (·.endOfRun (hi.not_endsRun hs) hnofault hrun) ?_
  rintro ⟨l, r, -, -, -, -, -, hfaulted, -⟩
  exact State.endOfRun_of_fault hfaulted

/-- DIV and MOD with legal indices and a zero divisor take the zero-divisor path (42_alu.md R146). -/
theorem exec_zeroDivisor (h : ZeroDivides i s) : exec i s = .next (s.zeroDivisor i.opcode) := by
  obtain ⟨a, b, p, q, rfl | rfl, hp, hq, hz⟩ := h <;> exact (withRegs_some hp hq s _).trans (if_pos hz)

/-- Settles O39: the status of the step gives each outcome's cause; conversely HLT and the zero-divisor path have one next
state each, and a failed run is one with `Faulted` set. -/
theorem runEndsInOneOfThreeWays : Obligations.RunEndsInOneOfThreeWays := by
  intro s t hi hs h
  obtain ⟨-, hnofault⟩ := (State.stopped_false_iff s).1 hs
  have hends := step_endOfRun hi hs h
  refine ⟨⟨?normalOnly, ?hltHalts⟩, ⟨?zeroOnly, ?zeroHalts⟩, t.endOfRun_eq_failedRun_iff⟩
  case normalOnly =>
    intro he
    simpa [he] using hends
  case hltHalts =>
    rintro ⟨rest, hf⟩
    have hexec : exec .hlt s = _ := execHlt_eq s
    rw [step_instr hs hf, hexec] at h
    cases h
    exact State.endOfRun_of_halt hnofault rfl (hi.not_endsRun hs)
  case zeroOnly =>
    intro he
    obtain ⟨i, rest, hf, a, b, p, q, hz⟩ : ∃ i rest, fetch s = .instr i rest ∧ ZeroDivides i s := by simpa [he] using hends
    exact ⟨i, rest, a, b, p, q, hf, hz⟩
  case zeroHalts =>
    rintro ⟨i, rest, a, b, p, q, hf, hz⟩
    rw [step_instr hs hf, exec_zeroDivisor ⟨a, b, p, q, hz⟩, State.zeroDivisor_eq] at h
    cases h
    exact State.endOfRun_of_zeroDivisor hnofault rfl rfl rfl

end Sys2Proof.Machine
end

section
/-!
30_encoding.md R93, 60_exceptions.md R226: the fetch. Which bytes are no instruction's opcode, what the fetch answers on
each kind of byte, and that a step runs the instruction whose bytes stand at `pc`.
-/
namespace Sys2Proof

/-- A byte is unrecognised exactly when it is no instruction's opcode (30_encoding.md R90). -/
theorem lookupOpcode_eq_none_iff (op : Byte) : lookupOpcode op = none ↔ ∀ i : Instr, i.opcode ≠ op := by
  constructor
  · rintro h i rfl
    obtain ⟨row, hrow, -⟩ := i.tableRow
    rw [h] at hrow
    cases hrow
  · intro h
    cases hrow : lookupOpcode op with
    | none => rfl
    | some row =>
      obtain ⟨hmem, hop⟩ := lookupOpcode_sound hrow
      exact absurd ((opcodeTable_build_opcode hmem 0 0).trans hop) (h _)

namespace Machine

variable {i : Instr} {s t : State}

/-- The fetch is truncated only when a declared operand byte lies above address 255. -/
theorem lt_of_fetch_truncated {op : Byte} (h : fetch s = .truncated op) : 255 < s.pc.toNat + operandCount s.opcodeByte := by
  rw [← State.operandBytes_length]
  rcases decode_cases s.opcodeByte s.operandBytes with ⟨hlt, -⟩ | ⟨-, -, e⟩ | ⟨row, -, -, e⟩
  · exact hlt
  · rw [fetch, e] at h; cases h
  · rw [fetch, e] at h; cases h

theorem operandCount_le_operandBytes (h : s.pc.toNat + operandCount s.opcodeByte ≤ 255) :
    operandCount s.opcodeByte ≤ s.operandBytes.length := by
  have := State.operandBytes_length s
  omega

theorem fetch_unrecognised (hop : ∀ i : Instr, i.opcode ≠ s.opcodeByte)
    (hfit : s.pc.toNat + operandCount s.opcodeByte ≤ 255) : ∃ rest, fetch s = .unrecognised s.opcodeByte rest :=
  ⟨_, decode_unknown (operandCount_le_operandBytes hfit) ((lookupOpcode_eq_none_iff _).2 hop)⟩

/-- The cells from `pc` up hold the encoding of `i`. -/
def State.HoldsAtPc (s : State) (i : Instr) : Prop :=
  ∀ k, k < (encode i).length → s.mem.read (s.pc.toNat + k) = (encode i).getD k 0

theorem State.HoldsAtPc.opcodeByte (h : s.HoldsAtPc i) : s.opcodeByte = i.opcode := h 0 (Nat.succ_pos _)

theorem State.HoldsAtPc.operandBytes (h : s.HoldsAtPc i) (hfit : s.pc.toNat + (encode i).length ≤ 256) :
    s.operandBytes = i.operands := by
  have hcount := i.operands_length
  have hlen : (encode i).length = i.operands.length + 1 := rfl
  rw [State.operandBytes, h.opcodeByte, ← hcount]
  refine List.ext_getElem ?_ fun k hk hk' => ?_
  · simp only [Memory.bytesFrom_length, Config.memSize]; omega
  · have hread := Memory.bytesFrom_getD s.mem (s.pc.toNat + 1) i.operands.length k hk' (by simp only [Config.memSize]; omega)
    have hcell : s.mem.read (s.pc.toNat + (k + 1)) = i.operands.getD k 0 := h (k + 1) (by omega)
    have haddr : s.pc.toNat + (k + 1) = s.pc.toNat + 1 + k := by omega
    rw [haddr, ← hread, List.getD_eq_getElem _ _ hk, List.getD_eq_getElem _ _ hk'] at hcell
    exact hcell

theorem fetch_of_holdsAtPc (h : s.HoldsAtPc i) (hfit : s.pc.toNat + (encode i).length ≤ 256) : fetch s = .instr i [] := by
  rw [fetch, h.opcodeByte, h.operandBytes hfit, ← List.append_nil i.operands]
  exact decode_opcode_operands i []

/-- Settles O31: the bytes at `pc` are the opcode and operand bytes of `i`, which the decoder reads back with none left. -/
theorem stepRunsInstructionAtPc : Obligations.StepRunsInstructionAtPc := by
  refine ⟨fun s i rest hs hf => step_instr hs hf, fun s i hs hfit hcells => ?_⟩
  have hf : fetch s = .instr i [] := fetch_of_holdsAtPc hcells hfit
  exact ⟨hf, step_instr hs hf⟩

/-- Settles O30: a byte without a row in the table is skipped by its length if the declared bytes fit, and truncated if
not. -/
theorem unrecognisedByteIsSkipped : Obligations.UnrecognisedByteIsSkipped := by
  intro s hs hop
  rw [← operandCount_eq]
  refine ⟨fun hfit => ?_, fun htop => ?_⟩
  · obtain ⟨rest, hf⟩ := fetch_unrecognised hop hfit
    rw [step_unrecognised hs hf, execUnrecognised, advance_eq_advanced]
    rfl
  · exact topClause_of_operandCount rfl s hs rfl htop

end Machine
end Sys2Proof
end

section
/-!
10_state.md R37, 41_output.md R122: the output stream. Each instruction appends what `printed` says, which is nothing but
for PRN and PRA on a legal index.
-/
namespace Sys2Proof.Machine

variable {i : Instr} {s t : State}

/-- What an instruction adds to the output stream. -/
def printed (s : State) : Instr → List (OutKind × Byte)
  | .prn a => (ridx a).elim [] fun r => [(.num, s.reg r)]
  | .pra a => (ridx a).elim [] fun r => [(.chr, s.reg r)]
  | _ => []

theorem State.outputs_of_events {l : List Event} (h : t.events = s.events ++ l) :
    t.outputs = s.outputs ++ l.filterMap Event.output? := by
  rw [State.outputs, h, List.filterMap_append]
  rfl

theorem State.outputs_of_report {r : Report} (h : t.events = s.events ++ [.rpt r]) : t.outputs = s.outputs := by
  rw [State.outputs_of_events h]
  exact List.append_nil _

theorem State.outputs_congr (h : t.events = s.events) : t.outputs = s.outputs := by rw [State.outputs, State.outputs, h]

theorem State.outputs_advance (s : State) (op : Byte) : (s.advance op).outputs = s.outputs := by
  rcases State.advance_events s op with ⟨h, -⟩ | ⟨h, -⟩
  · exact State.outputs_congr h
  · exact State.outputs_of_report h

theorem printed_of_ne (hprn : ∀ a, i ≠ .prn a) (hpra : ∀ a, i ≠ .pra a) : printed s i = [] := by
  cases i with
  | prn a => exact absurd rfl (hprn a)
  | pra a => exact absurd rfl (hpra a)
  | _ => rfl

/-- An illegal index prints nothing. -/
theorem printed_of_illegal {v : Byte} (hv : v ∈ i.regOperands) (hn : ridx v = none) : printed s i = [] := by
  by_cases hi : (∃ a, i = .prn a) ∨ ∃ a, i = .pra a
  · rcases hi with ⟨a, rfl⟩ | ⟨a, rfl⟩ <;> cases List.mem_singleton.1 hv <;> rw [printed, hn] <;> rfl
  · rw [not_or, not_exists, not_exists] at hi
    exact printed_of_ne hi.1 hi.2

theorem EffectGives_outputs {u : State} (h : EffectGives i s u) : u.outputs = s.outputs ++ printed s i := by
  obtain ⟨-, ⟨he, hprn, hpra⟩ | ⟨a, r, rfl, hr, he⟩ | ⟨a, r, rfl, hr, he⟩ | ⟨op, a, b, q, hi, -, -, -, he⟩⟩ :=
    EffectGives_events h
  · rw [printed_of_ne hprn hpra, List.append_nil, State.outputs_congr he]
  · rw [printed, hr, State.outputs_of_events he]; rfl
  · rw [printed, hr, State.outputs_of_events he]; rfl
  · rcases hi with ⟨rfl, -⟩ | ⟨rfl, -⟩ <;> rw [State.outputs_of_report he] <;> exact (List.append_nil _).symm

theorem ControlGives_outputs (h : ControlGives i s t) : t.outputs = s.outputs ++ printed s i := by
  obtain ⟨hprn, hpra, ⟨he, -⟩ | ⟨c, -, rfl⟩⟩ := ControlGives_events h
  · rw [printed_of_ne hprn hpra, List.append_nil, State.outputs_congr he]
  · rw [printed_of_ne hprn hpra, List.append_nil]
    exact State.outputs_of_report rfl

theorem ExecGives_outputs (h : ExecGives i s t) : t.outputs = s.outputs ++ printed s i := by
  rcases h with ⟨v, hv, hn, rfl⟩ | ⟨u, hu, rfl⟩ | hc
  · rw [printed_of_illegal hv hn, List.append_nil]
    exact State.outputs_of_report rfl
  · rw [State.outputs_advance, EffectGives_outputs hu]
  · exact ControlGives_outputs hc

/-- Settles O37: an instruction appends what it prints, and a step that fetches none appends nothing. -/
theorem outputOnlyByPrintInstructions : Obligations.OutputOnlyByPrintInstructions := by
  intro s t hs h
  rcases step_gives hs h with ⟨hf, rfl⟩ | ⟨i, rest, hf, hg⟩ | ⟨rest, hf, rfl⟩
  · rw [hf, List.append_nil]
    exact State.outputs_of_report rfl
  · rw [hf, ExecGives_outputs hg]
    cases i
    case prn a | pra a =>
      by_cases ha : a.toNat < 8
      · simp [printed, ridx_legal ha, ha]
      · simp [printed, ridx_illegal (not_lt.1 ha), ha]
    all_goals rfl
  · rw [hf, List.append_nil, State.outputs_advance]
    exact State.outputs_of_report rfl

end Sys2Proof.Machine
end

section
/-!
60_exceptions.md R224, R226, R229: faults are precise. A fault is either raised before any effect, and the state is
`failed`, or it is the successor fault of an instruction or unrecognised byte that is complete. Completion is told by
running the same instruction at address 0, where its successor lies in memory; the effects are the same there
(`EffectGives_setPc`).
-/
namespace Sys2Proof.Machine

variable {i : Instr} {s t u : State}

/-- The effects of an instruction do not depend on where it stands, but for the report of a zero divisor, which halts. -/
theorem EffectGives_setPc (h : EffectGives i s u) (hrun : u.halted = false) (p : Pc) :
    EffectGives i (s.setPc p) (u.setPc p) := by
  cases i
  case nop => cases h; rfl
  case hlt => cases h; cases hrun
  case ret | iret | call | int | jmp => exact h
  case push | pop | prn | pra | inc | dec | not | ldi =>
    obtain ⟨r, hr, rfl⟩ := h
    exact ⟨r, hr, rfl⟩
  case jeq | jne | jgt | jlt | jle | jge =>
    obtain ⟨r, hr, hc, rfl⟩ := h
    exact ⟨r, hr, hc, rfl⟩
  case ld | st | add | sub | mul | cmp | and | or | xor | shl | shr =>
    obtain ⟨d, r, hd, hr, rfl⟩ := h
    exact ⟨d, r, hd, hr, rfl⟩
  case div | mod =>
    obtain ⟨d, r, hd, hr, ⟨-, rfl⟩ | ⟨hz, rfl⟩⟩ := h
    · cases hrun
    · exact ⟨d, r, hd, hr, .inr ⟨hz, rfl⟩⟩

/-- The effects of the fetched instruction, at address 0, are followed by a quiet advance. -/
theorem completedWith_of_effect {rest : List Byte} (hf : fetch s = .instr i rest) (h : EffectGives i s u)
    (hrun : u.halted = false) : CompletedWith s u := by
  obtain ⟨hop, -⟩ := fetch_instr_opcode hf
  have hcount := operandCount_le s.opcodeByte
  have hexec := exec_of_effect (EffectGives_setPc h hrun 0)
  have hzero : (u.setPc 0).pc.toNat = 0 := rfl
  have hquiet : (u.setPc 0).pc.toNat + opLength i.opcode < 256 := by
    rw [hzero, hop, opLength]
    omega
  rw [State.advance_quiet _ _ (.inl hquiet), hzero, Nat.zero_add, hop] at hexec
  exact .inl ⟨i, rest, hf, hexec⟩

/-- A fault of an instruction that transfers control is raised before any effect; a range fault is CALL's. -/
theorem ControlGives_faulted {r : Report} (h : ControlGives i s t) (hs : s.faulted = none) (ht : t.faulted = some r) :
    r.addr = s.pc ∧ t = failed r.code r.info s ∧ (r.code = .addrRange → 255 < s.pc.toNat + 2 ∧ ∃ a, i = .call a) := by
  cases i
  case call a =>
    obtain ⟨p, -, ⟨htop, rfl⟩ | ⟨-, rfl⟩⟩ := h
    · cases ht
      exact ⟨rfl, rfl, fun _ => ⟨htop, a, rfl⟩⟩
    · cases hs.symm.trans ht
  case int => cases h; cases ht; exact ⟨rfl, rfl, nofun⟩
  case iret => cases h; cases ht; exact ⟨rfl, rfl, nofun⟩
  case ret => cases h; cases hs.symm.trans ht
  case jmp => obtain ⟨p, -, rfl⟩ := h; cases hs.symm.trans ht
  case jeq | jne | jgt | jlt | jle | jge => obtain ⟨p, -, -, rfl⟩ := h; cases hs.symm.trans ht
  all_goals exact h.elim

/-- A fault raised by the advance past a `u` without one is the successor fault of a byte that ends at address 255. -/
theorem advance_faulted {op : Byte} {r : Report} (hu : u.faulted = none) (hfit : u.pc.toNat + operandCount op ≤ 255)
    (ht : (u.advance op).faulted = some r) :
    r = ⟨.addrRange, u.pc, op⟩ ∧ u.halted = false ∧ u.pc.toNat + opLength op = 256 ∧
      u.advance op = { failed .addrRange op u with pc := 0 } := by
  rcases State.advance_cases u op with e | ⟨htop, hrun, e⟩ <;> rw [e] at ht
  · cases hu.symm.trans ht
  · cases ht
    have hend : u.pc.toNat + opLength op = 256 := by rw [opLength] at htop ⊢; omega
    rw [hend] at e
    exact ⟨rfl, hrun, hend, e⟩

/-- Settles O38: a truncated fetch, an illegal index and the faults of control transfer have no effect; otherwise the
fault is that of the advance, past the effects of an instruction or past an unrecognised byte's report. -/
theorem faultsArePrecise : Obligations.FaultsArePrecise := by
  intro s t r hs h ht
  obtain ⟨-, hnofault⟩ := (State.stopped_false_iff s).1 hs
  rcases step_gives hs h with ⟨hf, rfl⟩ | ⟨i, rest, hf, hg⟩ | ⟨rest, hf, rfl⟩
  · cases ht
    exact ⟨rfl, .inl ⟨rfl, fun _ => .inl (lt_of_fetch_truncated hf)⟩⟩
  · obtain ⟨hop, hfit⟩ := fetch_instr_opcode hf
    rcases hg with ⟨v, -, -, rfl⟩ | ⟨u, hu, rfl⟩ | hc
    · cases ht
      exact ⟨rfl, .inl ⟨rfl, nofun⟩⟩
    · have hpc := EffectGives_pc hu
      have hunofault : u.faulted = none := (EffectGives_events hu).1.trans hnofault
      rw [hop] at ht
      obtain ⟨rfl, hrun, hend, hadv⟩ := advance_faulted hunofault (hpc ▸ hfit) ht
      rw [hop, ← hpc]
      exact ⟨rfl, .inr ⟨rfl, rfl, hend, u, rfl, hunofault, completedWith_of_effect hf hu hrun, hadv⟩⟩
    · obtain ⟨haddr, heq, hcall⟩ := ControlGives_faulted hc hnofault ht
      refine ⟨haddr, .inl ⟨heq, fun hcode => .inr ?_⟩⟩
      obtain ⟨htop, a, rfl⟩ := hcall hcode
      exact ⟨htop, a, rest, hf⟩
  · have hfit : s.pc.toNat + operandCount s.opcodeByte ≤ 255 := by
      by_contra htop
      rw [fetch_truncated s (by omega)] at hf
      cases hf
    let u := s.report ⟨.unrecognised, s.pc, s.opcodeByte⟩
    obtain ⟨rfl, -, hend, hadv⟩ := advance_faulted (u := u) hnofault hfit ht
    exact ⟨rfl, .inr ⟨rfl, rfl, hend, u, rfl, hnofault, .inr ⟨rest, hf, rfl⟩, hadv⟩⟩

end Sys2Proof.Machine
end

section
/-!
40_data_movement.md, 41_output.md, 42_alu.md, 43_compare.md, 44_control_transfer.md: the instructions whose meaning is a
decision of the spec or general knowledge, each by the rule of its format.
-/
namespace Sys2Proof.Machine

variable {ctor : Byte → Byte → Instr} {op : Byte}

/-! ### Data movement and output -/

/-- Settles O2: LD's one effect is the register write of the addressed cell. -/
theorem loadReadsAddressedCell : Obligations.LoadReadsAddressedCell := by
  have heffect : ∀ a b d p s, ridx a = some d → ridx b = some p →
      EffectGives (.ld a b) s (s.setReg d (s.memRead (s.reg p))) := fun _ _ d p _ hd hp => ⟨d, p, hd, hp, rfl⟩
  exact twoRegisterRule_of_effect (fun _ _ => rfl) rfl heffect fun _ _ _ => ⟨_, rfl⟩

/-- Settles O3: ST's one effect is the write of the addressed cell. -/
theorem storeWritesAddressedCell : Obligations.StoreWritesAddressedCell := by
  have heffect : ∀ a b p r s, ridx a = some p → ridx b = some r →
      EffectGives (.st a b) s (s.memWrite (s.reg p) (s.reg r)) := fun _ _ p r _ hp hr => ⟨p, r, hp, hr, rfl⟩
  exact twoRegisterRule_of_effect (fun _ _ => rfl) rfl heffect fun _ _ _ => ⟨_, rfl⟩

/-- Settles O5: PRA's one effect is the output event. -/
theorem printCharacterEmitsRegister : Obligations.PrintCharacterEmitsRegister := by
  have heffect : ∀ a r s, ridx a = some r → EffectGives (.pra a) s (s.emit .chr (s.reg r)) :=
    fun _ r _ hr => ⟨r, hr, rfl⟩
  exact registerRule_of_effect (fun _ => rfl) rfl heffect fun _ _ => ⟨_, rfl⟩

/-! ### Division -/

theorem aluDiv_eq_ofNat (u v : Byte) : aluDiv u v = BitVec.ofNat 8 (u.toNat / v.toNat) := wrap8_natCast _

theorem aluMod_eq_ofNat (u v : Byte) : aluMod u v = BitVec.ofNat 8 (u.toNat % v.toNat) := wrap8_natCast _

/-- DIV or MOD meets the rule of every `f` that is its function `g` on the operands' values, modulo 256. -/
theorem divideRule_of_aluDivide {g : Byte → Byte → Byte} {f : Nat → Nat → Nat}
    (henc : ∀ a b, encode (ctor a b) = [op, a, b]) (hcount : operandCount op = 2)
    (hexec : ∀ a b s, exec (ctor a b) s = aluDivide op g a b s)
    (hvalue : ∀ u v, g u v = BitVec.ofNat 8 (f u.toNat v.toNat)) : DivideRule ctor op f := by
  refine ⟨henc, ?legal, ?illegalFirst, ?illegalSecond, topClause_of_operandCount hcount⟩
  case legal =>
    intro a b ha hb s
    rw [hexec, aluDivide, withRegs_legal ha hb, State.zeroDivisor_eq, advance_eq_advanced, opLength, hcount, hvalue]
    by_cases hz : s.reg ⟨b.toNat, hb⟩ = 0
    · rw [if_pos hz]; exact congrArg _ (if_pos hz).symm
    · rw [if_neg hz]; exact congrArg _ (if_neg hz).symm
  case illegalFirst =>
    intro a b s ha
    rw [hexec, aluDivide, withRegs_illegal_left ha, State.regIndexOut_eq_failed]
  case illegalSecond =>
    intro a b s ha hb
    rw [hexec, aluDivide, withRegs_illegal_right ha hb, State.regIndexOut_eq_failed]

/-- Settles O9: past the index checks, DIV and MOD either take the zero-divisor path or write their result. -/
theorem divideAndRemainderOrHalt : Obligations.DivideAndRemainderOrHalt :=
  ⟨divideRule_of_aluDivide (fun _ _ => rfl) rfl (fun _ _ _ => rfl) aluDiv_eq_ofNat,
    divideRule_of_aluDivide (fun _ _ => rfl) rfl (fun _ _ _ => rfl) aluMod_eq_ofNat⟩

/-! ### Shifts -/

/-- From an amount of 8 up every bit has left the byte. -/
theorem aluShl_eq_ofNat (u v : Byte) :
    aluShl u v = BitVec.ofNat 8 (if v.toNat < 8 then u.toNat * 2 ^ v.toNat else 0) := by
  rw [aluShl, wrap8_natCast, Nat.shiftLeft_eq]
  split
  · rfl
  · next h =>
    have hdvd : 2 ^ 8 ∣ u.toNat * 2 ^ v.toNat := Dvd.dvd.mul_left (pow_dvd_pow 2 (not_lt.1 h)) _
    exact BitVec.eq_of_toNat_eq (by rw [BitVec.toNat_ofNat, Nat.mod_eq_zero_of_dvd hdvd]; rfl)

theorem aluShr_eq_ofNat (u v : Byte) :
    aluShr u v = BitVec.ofNat 8 (if v.toNat < 8 then u.toNat / 2 ^ v.toNat else 0) := by
  rw [aluShr, wrap8_natCast, Nat.shiftRight_eq_div_pow]
  split
  · rfl
  · next h =>
    have hlt : u.toNat < 2 ^ v.toNat := u.isLt.trans_le (Nat.pow_le_pow_right two_pos (not_lt.1 h))
    rw [Nat.div_eq_of_lt hlt]

/-- Settles O14: SHL's one effect is the write of the shifted value. -/
theorem shlShiftsByWholeAmount : Obligations.ShlShiftsByWholeAmount :=
  aluRule_of_effect (fun _ _ => rfl) rfl (fun _ _ d r _ hd hr => ⟨d, r, hd, hr, rfl⟩) (fun _ _ _ => rfl) aluShl_eq_ofNat

/-- Settles O15: SHR's one effect is the write of the shifted value. -/
theorem shrShiftsInZeros : Obligations.ShrShiftsInZeros :=
  aluRule_of_effect (fun _ _ => rfl) rfl (fun _ _ d r _ hd hr => ⟨d, r, hd, hr, rfl⟩) (fun _ _ _ => rfl) aluShr_eq_ofNat

/-! ### Compare and the ordered jumps -/

/-- Settles O18: CMP's one effect is the write of all of `FL`. -/
theorem compareSetsOneOutcomeFlag : Obligations.CompareSetsOneOutcomeFlag := by
  have heffect : ∀ a b p q s, ridx a = some p → ridx b = some q →
      EffectGives (.cmp a b) s (s.setFl (compareFlags (s.reg p) (s.reg q))) := fun _ _ p q _ hp hq => ⟨p, q, hp, hq, rfl⟩
  exact twoRegisterRule_of_effect (fun _ _ => rfl) rfl heffect fun _ _ _ => ⟨_, rfl⟩

/-- Settles O22: the four ordered jumps are conditional jumps on their flags. -/
theorem orderedJumpsTestTheirFlags : Obligations.OrderedJumpsTestTheirFlags :=
  ⟨jumpRule_of_jumpIf (fun _ => rfl) rfl fun _ _ => rfl, jumpRule_of_jumpIf (fun _ => rfl) rfl fun _ _ => rfl,
    jumpRule_of_jumpIf (fun _ => rfl) rfl fun _ _ => rfl, jumpRule_of_jumpIf (fun _ => rfl) rfl fun _ _ => rfl⟩

end Sys2Proof.Machine
end

section
/-!
44_control_transfer.md R178, R179, 45_stack.md R190, R191: CALL, RET, PUSH and POP.
-/
namespace Sys2Proof.Machine

/-- Settles O23: past the index check CALL either has no return address and faults, or pushes it and jumps. -/
theorem callPushesReturnAddress : Obligations.CallPushesReturnAddress := by
  refine registerRule_of_withReg (fun _ => rfl) rfl fun a s => congrArg (withReg a s) (funext fun r => ?_)
  have hlength : opLength (Instr.call a).opcode = 2 := (encode_length (.call a)).symm
  have hiff : Config.memSize ≤ s.pc.toNat + 2 ↔ 255 < s.pc.toNat + 2 := Nat.lt_iff_add_one_le.symm
  simp only [hlength, hiff, wrap8_natCast, State.pushAddr_eq]
  split <;> rfl

/-- Settles O24: RET sets `pc` and the stack pointer, and nothing can stop it. -/
theorem returnPopsProgramCounter : Obligations.ReturnPopsProgramCounter := by
  refine ⟨rfl, fun s => ?_⟩
  have hexec : exec .ret s = .next ((s.setPc (s.memRead s.sp)).setSp s.popSp) := rfl
  rw [hexec, State.popSp_eq]
  rfl

/-- Settles O25: PUSH's effects are the lowered stack pointer and then the write where it points. -/
theorem pushWritesBelowStackPointer : Obligations.PushWritesBelowStackPointer := by
  refine registerRule_of_withReg (fun _ => rfl) rfl fun a s => congrArg (withReg a s) (funext fun r => ?_)
  dsimp only
  rw [State.pushAddr_eq, advance_eq_advanced, ← encode_length]
  rfl

/-- Settles O26: POP's effects are the register write and then the raised stack pointer. -/
theorem popReadsThenRaisesStackPointer : Obligations.PopReadsThenRaisesStackPointer := by
  refine registerRule_of_withReg (fun _ => rfl) rfl fun a s => congrArg (withReg a s) (funext fun r => ?_)
  dsimp only
  rw [State.popSp_eq, advance_eq_advanced, ← encode_length]
  rfl

end Sys2Proof.Machine
end

section
/-!
46_system.md R200 to R203, 10_state.md R39, 30_encoding.md R88 to R90: HLT, the placeholders, the reset values and the
facts about the opcode table.
-/
namespace Sys2Proof.Machine

/-- Settles O27: HLT is its one effect and a quiet advance. -/
theorem haltSetsHalted : Obligations.HaltSetsHalted := ⟨rfl, execHlt_eq⟩

/-- Settles O29: a placeholder's whole meaning is its fault; INT declares one operand byte. -/
theorem placeholdersFail : Obligations.PlaceholdersFail :=
  ⟨fun _ => rfl, rfl, fun _ _ => rfl, fun _ => rfl, topClause_of_operandCount rfl⟩

/-- Settles O43: the registers are looked at one by one, and a memory that lists no cell reads as 0. -/
theorem resetValues : Obligations.ResetValues :=
  ⟨by decide, rfl, rfl, rfl, rfl, rfl, fun _ => rfl, rfl, rfl, rfl⟩

/-- Settles O48: the 256 bytes are looked up in the table. -/
theorem unrecognisedBytesCounted : Obligations.UnrecognisedBytesCounted := by
  unfold Obligations.UnrecognisedBytesCounted
  decide

/-- Settles O49: the decoder is run on each word. -/
theorem specWordsDecode : Obligations.SpecWordsDecode := by
  unfold Obligations.SpecWordsDecode
  decide

end Sys2Proof.Machine
end

section
/-!
20_memory.md R51, R52, R66, 10_state.md R25: what an instruction stores (`storedBy`) and which registers it may write
(`mayWrite`), and that it changes no other cell and no other register. The bus accesses of a step and the four frames
follow.
-/
namespace Sys2Proof.Machine

variable {H Z : Prop} {i : Instr} {s t u : State}

/-! ### What an instruction stores -/

/-- The address and the byte an instruction stores, if it stores one: ST, PUSH and CALL do (20_memory.md R52). -/
def storedBy (s : State) : Instr → Option (Addr × Byte)
  | .push a => (ridx a).map fun r => (s.pushAddr, (s.setSp s.pushAddr).reg r)
  | .st a b => (ridx a).bind fun p => (ridx b).map fun r => (s.reg p, s.reg r)
  | .call a => if 255 < s.pc.toNat + 2 then none else (ridx a).map fun _ => (s.pushAddr, BitVec.ofNat 8 (s.pc.toNat + 2))
  | _ => none

/-- Memory after a store, or after none. -/
def Memory.afterStore (m : Memory) : Option (Addr × Byte) → Memory
  | none => m
  | some (addr, v) => m.write addr.toNat v

theorem storedBy_of_illegal {v : Byte} (hv : v ∈ i.regOperands) (hn : ridx v = none) : storedBy s i = none := by
  cases i with
  | push a => cases List.mem_singleton.1 hv; simp [storedBy, hn]
  | call a => cases List.mem_singleton.1 hv; simp [storedBy, hn]
  | st a b => rcases List.mem_pair.1 hv with rfl | rfl <;> simp [storedBy, hn]
  | _ => rfl

/-- PUSH and CALL store below the stack pointer, if they store. -/
theorem addr_of_storedBy {a addr v : Byte} (hi : i = .push a ∨ i = .call a) (h : storedBy s i = some (addr, v)) :
    addr = s.pushAddr := by
  have hmap : ∃ w : Reg → Byte, ((ridx a).map fun r => (s.pushAddr, w r)) = some (addr, v) := by
    rcases hi with rfl | rfl
    · exact ⟨_, h⟩
    · by_cases htop : 255 < s.pc.toNat + 2
      · rw [storedBy, if_pos htop] at h; cases h
      · rw [storedBy, if_neg htop] at h; exact ⟨_, h⟩
  obtain ⟨w, hw⟩ := hmap
  obtain ⟨r, -, hr⟩ := Option.map_eq_some_iff.1 hw
  cases hr
  rfl

theorem EffectGives_mem (h : EffectGives i s u) : u.mem = s.mem.afterStore (storedBy s i) := by
  cases i
  case push a => obtain ⟨r, hr, rfl⟩ := h; simp [storedBy, hr, Memory.afterStore]
  case st a b => obtain ⟨p, r, hp, hr, rfl⟩ := h; simp [storedBy, hp, hr, Memory.afterStore]
  case nop | hlt => cases h; rfl
  case ret | iret | call | int | jmp => exact h.elim
  case pop | prn | pra | inc | dec | not | ldi => obtain ⟨r, -, rfl⟩ := h; rfl
  case jeq | jne | jgt | jlt | jle | jge => obtain ⟨r, -, -, rfl⟩ := h; rfl
  case ld | add | sub | mul | cmp | and | or | xor | shl | shr => obtain ⟨d, r, -, -, rfl⟩ := h; rfl
  case div | mod => obtain ⟨d, r, -, -, ⟨-, rfl⟩ | ⟨-, rfl⟩⟩ := h <;> rfl

theorem ControlGives_mem (h : ControlGives i s t) : t.mem = s.mem.afterStore (storedBy s i) := by
  cases i
  case call a =>
    obtain ⟨r, hr, ⟨htop, rfl⟩ | ⟨hfit, rfl⟩⟩ := h
    · simp [storedBy, htop, Memory.afterStore]
    · simp [storedBy, not_lt.2 hfit, hr, Memory.afterStore]
  case ret | iret | int => cases h; rfl
  case jmp => obtain ⟨r, -, rfl⟩ := h; rfl
  case jeq | jne | jgt | jlt | jle | jge => obtain ⟨r, -, -, rfl⟩ := h; rfl
  all_goals exact h.elim

/-- Memory after an instruction is memory before it with its store, if it makes one. -/
theorem ExecGives_mem (h : ExecGives i s t) : t.mem = s.mem.afterStore (storedBy s i) := by
  rcases h with ⟨v, hv, hn, rfl⟩ | ⟨u, hu, rfl⟩ | hc
  · rw [storedBy_of_illegal hv hn]; rfl
  · rw [State.advance_mem, EffectGives_mem hu]
  · exact ControlGives_mem hc

theorem ExecGives_memRead (h : ExecGives i s t) (hi : storedBy s i = none) (c : Addr) : t.memRead c = s.memRead c := by
  rw [State.memRead, ExecGives_mem h, hi]
  rfl

/-- The one cell an instruction may change is the one it stores to. -/
theorem ExecGives_memRead_other (h : ExecGives i s t) {c : Addr} (hc : ∀ addr v, storedBy s i = some (addr, v) → c ≠ addr) :
    t.memRead c = s.memRead c := by
  cases hi : storedBy s i with
  | none => exact ExecGives_memRead h hi c
  | some w =>
    obtain ⟨addr, v⟩ := w
    rw [State.memRead, ExecGives_mem h, hi]
    exact State.memRead_memWrite_other s v (hc addr v hi)

/-! ### The bus (20_memory.md R52, R66) -/

/-- The fetch of a step only reads. -/
theorem foldl_applyTo_fetchAccesses (s : State) (m : Memory) : s.fetchAccesses.foldl Access.applyTo m = m := by
  simp only [State.fetchAccesses, List.foldl_cons, Access.applyTo]
  split
  · rfl
  · rw [List.foldl_append]
    split <;> split <;> rfl

/-- The data access of an instruction writes what it stores. -/
theorem foldl_applyTo_dataAccesses (i : Instr) (s : State) :
    (dataAccesses i s).foldl Access.applyTo s.mem = s.mem.afterStore (storedBy s i) := by
  cases i
  case push a | pop a => cases hr : ridx a <;> simp [dataAccesses, storedBy, hr, Memory.afterStore, Access.applyTo]
  case st a b | ld a b =>
    cases hp : ridx a <;> cases hr : ridx b <;>
      simp [dataAccesses, storedBy, hp, hr, Memory.afterStore, Access.applyTo]
  case call a =>
    have hiff : Config.memSize ≤ s.pc.toNat + 2 ↔ 255 < s.pc.toNat + 2 := Nat.lt_iff_add_one_le.symm
    have hlink : wrap8 ((s.pc.toNat : Int) + 2) = BitVec.ofNat 8 (s.pc.toNat + 2) := wrap8_add _ 2
    cases hr : ridx a <;> by_cases htop : 255 < s.pc.toNat + 2 <;>
      simp [dataAccesses, storedBy, hr, hiff, hlink, htop, Memory.afterStore, Access.applyTo]
  all_goals rfl

/-- Settles O55: the fetch reads, the data access writes what the instruction stores, and that is the whole change of
memory. -/
theorem busWritesAreTheOnlyMemoryChanges : Obligations.BusWritesAreTheOnlyMemoryChanges := by
  intro s t h
  cases hs : s.stopped with
  | true =>
    rw [step_stopped hs] at h
    cases h
    simp [stepAccesses, hs]
  | false =>
    simp only [stepAccesses, hs, Bool.false_eq_true, if_false, List.foldl_append, foldl_applyTo_fetchAccesses]
    rcases step_gives hs h with ⟨hf, rfl⟩ | ⟨i, rest, hf, hg⟩ | ⟨rest, hf, rfl⟩ <;> rw [hf]
    · rfl
    · rw [foldl_applyTo_dataAccesses, ExecGives_mem hg]
    · rw [State.advance_mem]; rfl

/-! ### Which registers an instruction may write -/

/-- `i` writes register `r`, if it writes any: the stack pointer for the stack instructions, `x[a]` for those with a
result. -/
def mayWrite (r : Reg) : Instr → Prop
  | .push _ | .call _ | .ret => r = 7
  | .pop a => r = 7 ∨ ridx a = some r
  | .inc a | .dec a | .not a | .ldi a _ | .ld a _ | .add a _ | .sub a _ | .mul a _ | .div a _ | .mod a _ | .and a _ | .or a _
  | .xor a _ | .shl a _ | .shr a _ => ridx a = some r
  | _ => False

theorem State.reg_setReg_of_ridx {a : Byte} {d r : Reg} (hd : ridx a = some d) (hr : ¬ridx a = some r) (v : Byte) :
    (s.setReg d v).reg r = s.reg r :=
  State.reg_setReg_other s v fun e => hr (e ▸ hd)

theorem State.reg_setSp_other {r : Reg} (hr : r ≠ 7) (v : Byte) : (s.setSp v).reg r = s.reg r := State.reg_setReg_other s v hr

theorem EffectGives_reg {r : Reg} (h : EffectGives i s u) (hr : ¬mayWrite r i) : u.reg r = s.reg r := by
  cases i
  case push a => obtain ⟨p, -, rfl⟩ := h; exact State.reg_setSp_other hr _
  case pop a =>
    obtain ⟨d, hd, rfl⟩ := h
    obtain ⟨hsp, hne⟩ := not_or.1 hr
    exact (State.reg_setSp_other hsp _).trans (State.reg_setReg_of_ridx hd hne _)
  case nop | hlt => cases h; rfl
  case ret | iret | call | int | jmp => exact h.elim
  case prn | pra => obtain ⟨p, -, rfl⟩ := h; rfl
  case jeq | jne | jgt | jlt | jle | jge => obtain ⟨p, -, -, rfl⟩ := h; rfl
  case st | cmp => obtain ⟨p, q, -, -, rfl⟩ := h; rfl
  case inc | dec | not | ldi => obtain ⟨d, hd, rfl⟩ := h; exact State.reg_setReg_of_ridx hd hr _
  case ld | add | sub | mul | and | or | xor | shl | shr =>
    obtain ⟨d, q, hd, -, rfl⟩ := h
    exact State.reg_setReg_of_ridx hd hr _
  case div | mod =>
    obtain ⟨d, q, hd, -, ⟨-, rfl⟩ | ⟨-, rfl⟩⟩ := h
    · rfl
    · exact State.reg_setReg_of_ridx hd hr _

theorem ControlGives_reg {r : Reg} (h : ControlGives i s t) (hr : ¬mayWrite r i) : t.reg r = s.reg r := by
  cases i
  case call a =>
    obtain ⟨p, -, ⟨-, rfl⟩ | ⟨-, rfl⟩⟩ := h
    · rfl
    · exact State.reg_setSp_other hr _
  case ret => cases h; exact State.reg_setSp_other hr _
  case iret | int => cases h; rfl
  case jmp => obtain ⟨p, -, rfl⟩ := h; rfl
  case jeq | jne | jgt | jlt | jle | jge => obtain ⟨p, -, -, rfl⟩ := h; rfl
  all_goals exact h.elim

/-- Every register an instruction does not write is as before. -/
theorem ExecGives_reg {r : Reg} (h : ExecGives i s t) (hr : ¬mayWrite r i) : t.reg r = s.reg r := by
  rcases h with ⟨v, -, -, rfl⟩ | ⟨u, hu, rfl⟩ | hc
  · rfl
  · rw [State.reg_advance, EffectGives_reg hu hr]
  · exact ControlGives_reg hc hr

/-- An instruction that checks an illegal index first does nothing but report it. -/
theorem exec_illegal {v : Byte} {k : Reg → Result} (hexec : exec i s = withReg v s k) (hn : ridx v = none)
    (h : exec i s = .next t) : t = s.regIndexOut v := by
  rw [hexec, withReg_illegal (ridx_eq_none hn)] at h
  cases h
  rfl

/-! ### The status frame -/

theorem Completes.statusFrame (h : Completes H Z s t) : StatusFrame s t := by
  obtain ⟨l, hevents, -, haddr⟩ := h.events
  have hfaulted : t.faulted = s.faulted := by cases h <;> assumption
  exact ⟨⟨l, hevents, haddr⟩, .inl hfaulted⟩

theorem Fails.statusFrame (h : Fails s t) : StatusFrame s t := by
  obtain ⟨l, hevents, -, haddr⟩ := h.events
  obtain ⟨l', r, -, -, hr, -, hlast, hfaulted, -⟩ := h
  exact ⟨⟨l, hevents, haddr⟩, .inr ⟨r, hfaulted, hr, by rw [hlast, List.getLast?_concat]⟩⟩

theorem ExecGives_statusFrame (h : ExecGives i s t) : StatusFrame s t :=
  (ExecGives_status h).elim (·.statusFrame) (·.statusFrame)

/-- An instruction keeps `Halted`, or it is HLT, DIV or MOD. -/
theorem ExecGives_halted (h : ExecGives i s t) : t.halted = s.halted ∨ i = .hlt ∨ ∃ a b, i = .div a b ∨ i = .mod a b := by
  rcases ExecGives_status h with hc | ⟨l, r, -, -, -, -, -, -, hhalted⟩
  · cases hc with
    | goesOn _ _ _ _ _ hhalted => exact .inl hhalted
    | halts hi => exact .inr (.inl hi)
    | zeroDivisor hz =>
      obtain ⟨a, b, -, -, hi, -⟩ := hz
      exact .inr (.inr ⟨a, b, hi⟩)
  · exact .inl hhalted

/-! ### The frames -/

/-- Settles O57: these instructions store and print nothing, write `x[a]` at most, and only DIV and MOD can halt. -/
theorem registerResultFrame : Obligations.RegisterResultFrame := by
  intro a b i hi s t h
  have hg := exec_inv h
  have hkind : (∀ r, mayWrite r i → r.val = a.toNat) ∧ storedBy s i = none ∧ printed s i = [] := by
    fin_cases hi <;> exact ⟨fun r hr => (ridx_eq_some hr).2, rfl, rfl⟩
  obtain ⟨hwrite, hstore, hprint⟩ := hkind
  refine ⟨fun r hr => ExecGives_reg hg fun hw => hr (hwrite r hw), ?fl, ExecGives_memRead hg hstore, ?outputs, ?halted,
    ExecGives_statusFrame hg⟩
  case fl =>
    rcases ExecGives_fl hg with hfl | ⟨a', b', rfl⟩
    · exact hfl
    · simp at hi
  case outputs => rw [ExecGives_outputs hg, hprint, List.append_nil]
  case halted =>
    rcases ExecGives_halted hg with hhalted | rfl | ⟨a', b', rfl | rfl⟩
    · exact .inl hhalted
    · simp at hi
    · exact .inr (.inl (by simpa using hi))
    · exact .inr (.inr (by simpa using hi))

/-- Settles O58: these instructions store nothing and write no register; CMP, HLT and the two prints are the exceptions. -/
theorem noRegisterNoMemoryFrame : Obligations.NoRegisterNoMemoryFrame := by
  intro a b i hi s t h
  have hg := exec_inv h
  have hkind : (∀ r, ¬mayWrite r i) ∧ storedBy s i = none := by
    fin_cases hi <;> exact ⟨fun _ => id, rfl⟩
  obtain ⟨hwrite, hstore⟩ := hkind
  refine ⟨fun r => ExecGives_reg hg (hwrite r), ExecGives_memRead hg hstore, ?fl, ?halted, ?outputs, ExecGives_statusFrame hg⟩
  case fl =>
    refine (ExecGives_fl hg).imp_right ?_
    rintro ⟨a', b', rfl⟩
    simpa using hi
  case halted =>
    rcases ExecGives_halted hg with hhalted | rfl | ⟨a', b', rfl | rfl⟩
    · exact .inl hhalted
    · exact .inr rfl
    · simp at hi
    · simp at hi
  case outputs =>
    by_cases hp : i = .prn a ∨ i = .pra a
    · exact .inr hp
    · have hprn : ∀ a', i ≠ .prn a' := by
        rintro a' rfl
        exact hp (.inl (by simpa using hi))
      have hpra : ∀ a', i ≠ .pra a' := by
        rintro a' rfl
        exact hp (.inr (by simpa using hi))
      exact .inl (by rw [ExecGives_outputs hg, printed_of_ne hprn hpra, List.append_nil])

/-- ST, PUSH and CALL keep `FL`, `Halted` and the output stream, and have the status frame of every instruction. -/
theorem storing_keeps_status (hi : (∃ a b, i = .st a b) ∨ ∃ a, i = .push a ∨ i = .call a) (h : ExecGives i s t) :
    t.fl = s.fl ∧ t.halted = s.halted ∧ t.outputs = s.outputs ∧ StatusFrame s t := by
  have hkind : (¬∃ a b, i = .cmp a b) ∧ (¬(i = .hlt ∨ ∃ a b, i = .div a b ∨ i = .mod a b)) ∧ printed s i = [] := by
    rcases hi with ⟨a, b, rfl⟩ | ⟨a, rfl | rfl⟩ <;> simp [printed]
  obtain ⟨hcmp, hhalt, hprint⟩ := hkind
  refine ⟨(ExecGives_fl h).resolve_right hcmp, (ExecGives_halted h).resolve_right hhalt, ?_, ExecGives_statusFrame h⟩
  rw [ExecGives_outputs h, hprint, List.append_nil]

/-- CALL without a return address changes no register. -/
theorem ExecGives_call_top_reg {a : Byte} (htop : 255 < s.pc.toNat + 2) (h : ExecGives (.call a) s t) (r : Reg) :
    t.reg r = s.reg r := by
  rcases h with ⟨v, -, -, rfl⟩ | ⟨u, hu, -⟩ | ⟨p, -, ⟨-, rfl⟩ | ⟨hfit, -⟩⟩
  · rfl
  · exact hu.elim
  · rfl
  · omega

/-- Settles O59: what these three store is `storedBy`, which an illegal index or a missing return address empties; their one
register is the stack pointer. -/
theorem storingFrame : Obligations.StoringFrame := by
  refine ⟨?st, ?pushCall⟩
  case st =>
    intro a b s t h
    have hg := exec_inv h
    obtain ⟨hfl, hhalted, houtputs, hstatus⟩ := storing_keeps_status (.inl ⟨a, b, rfl⟩) hg
    refine ⟨fun r => ExecGives_reg hg id, hfl, hhalted, houtputs, hstatus, ?other, ?illegal⟩
    case other =>
      rintro p addr hp rfl c hc
      refine ExecGives_memRead_other hg fun addr v hstore => ?_
      obtain ⟨w, -, rfl, -⟩ : ∃ w, ridx b = some w ∧ s.reg p = addr ∧ s.reg w = v := by simpa [storedBy, hp] using hstore
      exact hc
    case illegal =>
      rintro (hn | hn)
      · exact ExecGives_memRead hg (by simp [storedBy, hn])
      · exact ExecGives_memRead hg (by simp [storedBy, hn])
  case pushCall =>
    rintro a i s t hi h
    have hg := exec_inv h
    obtain ⟨hfl, hhalted, houtputs, hstatus⟩ := storing_keeps_status (.inr ⟨a, hi⟩) hg
    have hregs : ∀ r : Reg, r ≠ 7 → t.reg r = s.reg r := by
      rcases hi with rfl | rfl <;> exact fun r hr => ExecGives_reg hg hr
    refine ⟨hregs, hfl, hhalted, houtputs, hstatus, ?other, ?nothing⟩
    case other =>
      rintro _ rfl c hc
      exact ExecGives_memRead_other hg fun addr v hstore => addr_of_storedBy hi hstore ▸ hc
    case nothing =>
      rintro (hn | ⟨rfl, htop⟩)
      · have hexec : ∃ k, exec i s = withReg a s k := by rcases hi with rfl | rfl <;> exact ⟨_, rfl⟩
        obtain ⟨k, hk⟩ := hexec
        cases exec_illegal hk hn h
        exact ⟨fun _ => rfl, fun _ => rfl⟩
      · exact ⟨ExecGives_call_top_reg htop hg, ExecGives_memRead hg (by simp [storedBy, htop])⟩

/-- Settles O60: neither stores, prints or halts; their registers are `x[a]` and the stack pointer. -/
theorem poppingFrame : Obligations.PoppingFrame := by
  refine ⟨?pop, ?ret⟩
  case pop =>
    intro a s t h
    have hg := exec_inv h
    refine ⟨?regs, ?fl, ExecGives_memRead hg rfl, ?halted, ?outputs, ExecGives_statusFrame hg, ?illegal⟩
    case regs =>
      intro r hra hr7
      refine ExecGives_reg hg ?_
      rintro (hr | hr)
      · exact hr7 hr
      · exact hra (ridx_eq_some hr).2
    case fl => exact (ExecGives_fl hg).resolve_right (by simp)
    case halted => exact (ExecGives_halted hg).resolve_right (by simp)
    case outputs => rw [ExecGives_outputs hg]; exact List.append_nil _
    case illegal =>
      intro hn r
      cases exec_illegal rfl hn h
      rfl
  case ret =>
    intro s t h
    cases h
    exact ⟨fun r hr => State.reg_setSp_other hr _, rfl, fun _ => rfl, rfl, rfl, rfl⟩

end Sys2Proof.Machine
end

section
/-!
30_encoding.md R82: bit 4 of the opcode. An instruction that sets `pc` itself or raises a placeholder fault
(`ControlGives`) has it set, so with it clear and legal indices only the effects and the advance remain.
-/
namespace Sys2Proof.Machine

variable {i : Instr} {s t : State}

theorem ControlGives_setsPcBit (h : ControlGives i s t) : setsPcBit i.opcode = true := by
  cases i
  case ret | iret | call | int | jmp | jeq | jne | jgt | jlt | jle | jge => simp [setsPcBit, Instr.opcode, Config.opcodes]
  all_goals exact h.elim

/-- A well-formed instruction has no illegal index to report. -/
theorem not_illegal_of_wellFormed (hw : i.wellFormed = true) : ¬∃ v, v ∈ i.regOperands ∧ ridx v = none := by
  rintro ⟨v, hv, hn⟩
  have hlegal : v.toNat < 8 := of_decide_eq_true (List.all_eq_true.1 hw v hv)
  exact absurd (ridx_eq_none hn) (by omega)

/-- Settles O47: the bit is read off each opcode; what bit 4 leaves clear ends with the advance; a jump not taken does too. -/
theorem setsPcBitMarksControlTransfer : Obligations.SetsPcBitMarksControlTransfer := by
  refine ⟨?marks, ?advances, ?notTaken⟩
  case marks =>
    intro i
    cases i <;> simp [setsPcBit, Instr.opcode, Config.opcodes]
  case advances =>
    intro i s t hbit hw h
    rcases exec_inv h with ⟨v, hv, hn, -⟩ | ⟨u, hu, rfl⟩ | hc
    · exact absurd ⟨v, hv, hn⟩ (not_illegal_of_wellFormed hw)
    · exact ⟨u, EffectGives_pc hu, advance_eq_advanced _ _⟩
    · rw [ControlGives_setsPcBit hc] at hbit; cases hbit
  case notTaken =>
    intro a s ha
    obtain ⟨-, hjeq, -⟩ := jumpIfEqual
    obtain ⟨-, hjne, -⟩ := jumpIfNotEqual
    obtain ⟨⟨-, hjgt, -⟩, ⟨-, hjlt, -⟩, ⟨-, hjge, -⟩, ⟨-, hjle, -⟩⟩ := orderedJumpsTestTheirFlags
    refine ⟨fun hE => ?_, fun hE => ?_, fun hG => ?_, fun hL => ?_, fun hL hE => ?_, fun hG hE => ?_⟩
    · simp [hjeq a ha, hE]
    · simp [hjne a ha, hE]
    · simp [hjgt a ha, hG]
    · simp [hjlt a ha, hL]
    · simp [hjle a ha, hL, hE]
    · simp [hjge a ha, hG, hE]

end Sys2Proof.Machine
end

section
/-!
43_compare.md R160, 44_control_transfer.md R172 to R177: a comparison and the jump after it. The flags of a comparison are
the three outcomes of the order, and each jump's rule tests its own.
-/
namespace Sys2Proof.Machine

variable {t : State} {u v : Byte}

/-- The three flags of a comparison are the three outcomes of the unsigned order. -/
theorem State.flags_of_compare (h : t.fl = compareFlags u v) :
    t.flagE = decide (u.toNat = v.toNat) ∧ t.flagL = decide (u.toNat < v.toNat) ∧ t.flagG = decide (v.toNat < u.toNat) := by
  simp only [State.flagE, State.flagL, State.flagG, h]
  rcases compareFlags_cases u v with ⟨rfl, e⟩ | ⟨hlt, e⟩ | ⟨hlt, e⟩ <;> rw [e]
  · simp [flEqual]
  · simp [flLess, hlt, hlt.ne, hlt.le]
  · simp [flGreater, hlt, hlt.ne', hlt.le]

/-- A conditional jump on a condition that stands for the proposition `P`. -/
theorem JumpRule.exec_eq {ctor : Byte → Instr} {op c w : Byte} {cond : State → Bool} {P : Prop} [Decidable P]
    (h : JumpRule ctor op cond) (hc : c.toNat < 8) (hreg : t.reg ⟨c.toNat, hc⟩ = w) (hP : cond t = true ↔ P) :
    exec (ctor c) t = .next (if P then { t with pc := w } else advanced op 2 t) := by
  obtain ⟨-, hlegal, -⟩ := h
  subst hreg
  exact (hlegal c hc t).trans (congrArg Host.Outcome.next (if_congr hP rfl rfl))

/-- Settles O54: CMP completes, its flags say how the operands are ordered, and each jump follows its rule. -/
theorem compareThenJumpFollowsOrder : Obligations.CompareThenJumpFollowsOrder := by
  intro a b c ha hb hc s
  refine ⟨_, exec_cmp_legal ha hb s, ?_⟩
  dsimp only
  generalize hu : s.reg ⟨a.toNat, ha⟩ = u
  generalize hv : s.reg ⟨b.toNat, hb⟩ = v
  generalize ht : (s.setFl (compareFlags u v)).advance (Instr.cmp a b).opcode = t
  have hfl : t.fl = compareFlags u v := by rw [← ht, State.advance_fl, State.setFl_fl]
  have hreg : t.reg ⟨c.toNat, hc⟩ = s.reg ⟨c.toNat, hc⟩ := by rw [← ht, State.reg_advance, State.reg_setFl]
  obtain ⟨hE, hL, hG⟩ := State.flags_of_compare hfl
  obtain ⟨hjgt, hjlt, hjge, hjle⟩ := orderedJumpsTestTheirFlags
  refine ⟨JumpRule.exec_eq jumpIfEqual hc hreg ?_, JumpRule.exec_eq jumpIfNotEqual hc hreg ?_,
    hjgt.exec_eq hc hreg ?_, hjlt.exec_eq hc hreg ?_, hjge.exec_eq hc hreg ?_, hjle.exec_eq hc hreg ?_⟩
  · simp [hE]
  · simp [hE]
  · simp [hG]
  · simp [hL]
  · simp [hG, hE]; omega
  · simp [hL, hE]; omega

end Sys2Proof.Machine
end

section
/-!
20_memory.md R51, R59, R61, R64, R68, 45_stack.md R192: memory, the stack and the next fetch. A push stores one byte below
the stack pointer (`State.pushed`); a pop right after it reads that byte and restores the stack pointer.
-/
namespace Sys2Proof.Machine

variable {s t : State}

/-- Settles O50: the laws of memory, at addresses below 256. -/
theorem memoryReadAfterWrite : Obligations.MemoryReadAfterWrite := by
  intro s addr v c hw
  refine ⟨?_, rfl, Memory.write_wf addr v hw⟩
  split
  · next hc => rw [hc, State.memRead_memWrite_same s hw]
  · next hc => exact State.memRead_memWrite_other s v hc

/-! ### A push and the pop after it -/

/-- The stack pointer lowered and `v` stored where it then points: what PUSH and CALL have in common (R68). -/
def State.pushed (s : State) (v : Byte) : State := (s.setSp s.pushAddr).memWrite s.pushAddr v

theorem State.sp_pushed (s : State) (v : Byte) : (s.pushed v).sp = s.pushAddr := s.sp_setSp s.pushAddr

theorem State.reg_pushed_other (v : Byte) {r : Reg} (hr : r ≠ 7) : (s.pushed v).reg r = s.reg r := State.reg_setSp_other hr _

theorem State.memRead_pushed (hw : s.mem.wf = true) (v : Byte) : (s.pushed v).memRead s.pushAddr = v :=
  State.memRead_memWrite_same (s.setSp s.pushAddr) hw s.pushAddr v

/-- Raising the stack pointer undoes lowering it, the wrap at 0 included. -/
theorem State.popSp_of_sp (h : t.sp = s.pushAddr) : t.popSp = s.sp := by
  have hlt := toNat_lt_256 s.sp
  apply BitVec.eq_of_toNat_eq
  simp only [State.popSp_eq, h, State.pushAddr_eq, BitVec.toNat_ofNat, Config.xlen]
  omega

/-- After a pop from a lowered stack pointer every register is as before the push, if all others are. -/
theorem State.reg_setSp_popSp (hsp : t.sp = s.pushAddr) (hother : ∀ r : Reg, r ≠ 7 → t.reg r = s.reg r) (r : Reg) :
    (t.setSp t.popSp).reg r = s.reg r := by
  rw [State.popSp_of_sp hsp]
  by_cases hr : r = 7
  · subst hr; exact t.sp_setSp s.sp
  · rw [State.reg_setSp_other hr, hother r hr]

theorem exec_st {a b : Byte} {p r : Reg} (hp : ridx a = some p) (hr : ridx b = some r) (s : State) :
    exec (.st a b) s = .next ((s.memWrite (s.reg p) (s.reg r)).advance (Instr.st a b).opcode) :=
  exec_of_effect ⟨p, r, hp, hr, rfl⟩

theorem exec_push {a : Byte} {r : Reg} (hr : ridx a = some r) (s : State) :
    exec (.push a) s = .next ((s.pushed ((s.setSp s.pushAddr).reg r)).advance (Instr.push a).opcode) :=
  exec_of_effect ⟨r, hr, rfl⟩

theorem exec_pop {a : Byte} {d : Reg} (hd : ridx a = some d) (s : State) :
    exec (.pop a) s =
      .next (((s.setReg d (s.memRead s.sp)).setSp (s.setReg d (s.memRead s.sp)).popSp).advance (Instr.pop a).opcode) :=
  exec_of_effect ⟨d, hd, rfl⟩

/-- CALL with a return address pushes it and jumps. -/
theorem exec_call {a : Byte} {r : Reg} (hr : ridx a = some r) (hfit : s.pc.toNat + 2 ≤ 255) :
    exec (.call a) s = .next ((s.pushed (BitVec.ofNat 8 (s.pc.toNat + 2))).setPc ((s.setSp s.pushAddr).reg r)) := by
  obtain ⟨t, ht, hg⟩ := exec_gives (.call a) s
  rw [ht]
  rcases hg with ⟨v, hv, hn, -⟩ | ⟨u, hu, -⟩ | ⟨q, hq, ⟨htop, -⟩ | ⟨-, rfl⟩⟩
  · cases List.mem_singleton.1 hv
    rw [hr] at hn
    cases hn
  · exact hu.elim
  · omega
  · rw [hr] at hq
    cases hq
    rfl

/-- Settles O51: POP reads back what PUSH stored, and the stack pointer is raised to where it was. -/
theorem pushPopRoundTrip : Obligations.PushPopRoundTrip := by
  intro a ha s ha7 hw
  let r : Reg := ⟨a.toNat, ha⟩
  have hr : ridx a = some r := ridx_legal ha
  have hr7 : r ≠ 7 := fun e => ha7 (congrArg Fin.val e)
  let u := (s.pushed (s.reg r)).advance (Instr.push a).opcode
  have hpush : exec (.push a) s = .next u := by rw [exec_push hr, State.reg_setSp_other hr7]
  have hsp : u.sp = s.pushAddr := (State.reg_advance _ _ _).trans (s.sp_pushed _)
  have hcell : u.memRead s.pushAddr = s.reg r := (State.memRead_advance _ _ _).trans (State.memRead_pushed hw _)
  have hother : ∀ q : Reg, q ≠ 7 → u.reg q = s.reg q := fun q hq =>
    (State.reg_advance _ _ _).trans (State.reg_pushed_other _ hq)
  refine ⟨u, _, hpush, exec_pop hr u, fun q => ?_, ?_⟩
  · rw [State.reg_advance, hsp, hcell]
    have hsame : ∀ q, (u.setReg r (s.reg r)).reg q = u.reg q := by
      intro q
      rw [State.reg_setReg]
      split
      · next e => rw [e, hother r hr7]
      · rfl
    exact State.reg_setSp_popSp ((hsame 7).trans hsp) (fun q hq => (hsame q).trans (hother q hq)) q
  · rw [State.memRead_advance, ← hcell, State.pushAddr_eq]
    rfl

/-- Settles O52: RET reads back the return address CALL stored, and the stack pointer is raised to where it was. -/
theorem returnUndoesCall : Obligations.ReturnUndoesCall := by
  intro a s ha hw hfit
  have hcall := exec_call (ridx_legal ha) hfit
  let link := BitVec.ofNat 8 (s.pc.toNat + 2)
  refine ⟨_, _, hcall, rfl, ?pc, State.reg_setSp_popSp (s.sp_pushed link) fun r hr => State.reg_pushed_other link hr⟩
  case pc =>
    have hlink : ((s.pushed link).memRead (s.pushed link).sp).toNat = s.pc.toNat + 2 := by
      rw [State.sp_pushed, State.memRead_pushed hw, BitVec.toNat_ofNat]
      exact Nat.mod_eq_of_lt (Nat.lt_succ_of_le hfit)
    exact hlink

/-! ### The next fetch -/

/-- A cell that holds `v` is seen by the fetch: the opcode and the operand bytes are read from memory as it is. -/
theorem storeSeen_of_memRead {addr v : Byte} (h : t.memRead addr = v) : StoreSeen t addr v := by
  refine ⟨h, fun u hu => ⟨?opcode, ?operand⟩⟩
  case opcode =>
    rintro rfl
    exact hu.trans h
  case operand =>
    intro k hk haddr
    have hlt := toNat_lt_256 addr
    have hlen : k < u.operandBytes.length := by
      simp only [State.operandBytes, Memory.bytesFrom_length, Config.memSize]
      omega
    have hread := Memory.bytesFrom_getD u.mem (u.pc.toNat + 1) _ k hk (by simp only [Config.memSize]; omega)
    rw [haddr] at hread
    rw [List.getElem?_eq_getElem hlen, ← List.getD_eq_getElem _ 0 hlen]
    exact congrArg some (hread.trans (hu.trans h))

/-- Settles O53: each of the three leaves the byte in the cell, and the fetch sees what the cell holds. -/
theorem storeSeenByNextFetch : Obligations.StoreSeenByNextFetch := by
  refine ⟨?st, ?push, ?call⟩
  case st =>
    intro a b ha hb s t hw h
    rw [exec_st (ridx_legal ha) (ridx_legal hb)] at h
    cases h
    exact storeSeen_of_memRead (by rw [State.memRead_advance, State.memRead_memWrite_same s hw])
  case push =>
    intro a ha s t hw h
    rw [exec_push (ridx_legal ha)] at h
    cases h
    refine storeSeen_of_memRead ?_
    rw [State.memRead_advance, State.memRead_pushed hw]
    rfl
  case call =>
    intro a s t ha hw hfit h
    rw [exec_call (ridx_legal ha) hfit] at h
    cases h
    exact storeSeen_of_memRead (State.memRead_pushed hw _)

end Sys2Proof.Machine
end

section
/-!
20_memory.md R67, 70_reset_and_hazards.md R250, R251: the loader.
-/
namespace Sys2Proof.Machine

theorem imageOk_iff (words : List Nat) : imageOk words = true ↔ words.length ≤ 256 ∧ ∀ w ∈ words, w ≤ 255 := by
  simp [imageOk, Nat.lt_succ_iff]

theorem startOfRun_isSome (words : List Nat) : (startOfRun words).isSome = imageOk words := by
  rw [startOfRun, State.loadImage]
  split
  · next hok => exact hok.symm
  · next hok => exact (Bool.eq_false_of_not_eq_true hok).symm

/-- Word `i` of a loaded image stands in cell `i`, and every cell past the image is 0. -/
theorem read_place_image {words : List Nat} (hlen : words.length ≤ 256) (k : Nat) :
    (Memory.place [] 0 (words.map (BitVec.ofNat 8))).read k = BitVec.ofNat 8 (words.getD k 0) := by
  have hempty : Memory.wf [] = true := rfl
  rw [Memory.read_place hempty _ 0 k (by simpa using hlen)]
  split
  · exact List.getD_map _ _ _
  · next h =>
    have hpast : words.length ≤ k := by simpa using h
    rw [List.getD_eq_default _ _ hpast]
    rfl

/-- Settles O56: the loader accepts exactly the images that fit, and placing the bytes from address 0 fills the cells. -/
theorem loaderPlacesImage : Obligations.LoaderPlacesImage := by
  refine ⟨fun words => ?accepts, fun words s h => ?places⟩
  case accepts => rw [startOfRun_isSome, imageOk_iff]
  case places =>
    obtain ⟨hok, rfl⟩ := startOfRun_eq h
    obtain ⟨hlen, -⟩ := (imageOk_iff words).1 hok
    exact ⟨fun k _ => read_place_image hlen k, rfl, read_place_image hlen 0⟩

end Sys2Proof.Machine
end
